-- ==== Sys2Proof/Word.lean ====
section
/-! DEFINITION. The words of the block: port beats, 16-bit samples and weights, header fields, and the pair
of four-entry vectors that one channel slot holds (00_scope.md R7, R8, R11; 10_state.md R20). -/

namespace Sys2Proof

/-- One word on either port (00_scope.md R7, R14). -/
abbrev Beat := BitVec 32

/-- A signed 16-bit value: a sample, a history entry or a weight (00_scope.md R5, R8). Its integer value is
its two's-complement reading. -/
abbrev S16 := BitVec 16

/-- A channel number, the `CH` field of a header (30_encoding.md R61). -/
abbrev Channel := BitVec 8

/-- A quantized scale factor, 0 to 15, the `SFQ` field (30_encoding.md R61). -/
abbrev Sfq := BitVec 4

/-- A residual code, 0 to 7, the `CODE` field (30_encoding.md R61). -/
abbrev Code := BitVec 3

/-- Four signed 16-bit entries in index order 0 to 3 (00_scope.md R5, `LMS_LEN`). -/
structure Taps where
  t0 : S16
  t1 : S16
  t2 : S16
  t3 : S16
deriving DecidableEq, Repr

/-- Entry `i` of a vector (00_scope.md R11). -/
def Taps.get (t : Taps) (i : Fin 4) : S16 :=
  match i with
  | 0 => t.t0
  | 1 => t.t1
  | 2 => t.t2
  | 3 => t.t3

/-- One channel slot, `LMS(c)`: the history, oldest entry first, and the weights (00_scope.md R11,
10_state.md R20, R21). -/
structure LmsState where
  h : Taps
  w : Taps
deriving DecidableEq, Repr

end Sys2Proof
end

