-- ==== Sys2Proof/Machine/Operands.lean ====
section
/-! DEFINITION. How operands and results travel in beats: scalars, samples, 64-bit values and snapshots
(20_memory.md R43, R44, R45). -/

namespace Sys2Proof

/-- A payload beat that carries a sample: bits `[15:0]`, the others ignored (20_memory.md R45). -/
def sampleOfBeat (b : Beat) : S16 := b.extractLsb' 0 16

/-- The beat an assembler writes for a sample: the sample in `[15:0]`, zeros above (30_encoding.md R72). -/
def beatOfSample (x : S16) : Beat := x.setWidth 32

/-- A signed result of at most 32 bits, sign-extended (20_memory.md R45). -/
def sext32 (x : Int) : Beat := BitVec.ofInt 32 x

/-- An unsigned result, zero-extended (20_memory.md R45). -/
def zext32 (n : Nat) : Beat := BitVec.ofNat 32 n

/-- A 64-bit value from its two beats, most significant first (20_memory.md R43(a)). -/
def sliceOfBeats (hi lo : Beat) : BitVec 64 := hi ++ lo

/-- A 64-bit value as two beats, most significant first (20_memory.md R43(a)). -/
def beatsOfSlice (v : BitVec 64) : List Beat := [v.extractLsb' 32 32, v.extractLsb' 0 32]

/-- Two 16-bit values in one beat, the first in `[31:16]` (20_memory.md R44). -/
def pairBeat (a b : S16) : Beat := a ++ b

/-- The four beats of a snapshot: history, then weights, in index order (20_memory.md R44). -/
def beatsOfSnapshot (v : LmsState) : List Beat :=
  [pairBeat v.h.t0 v.h.t1, pairBeat v.h.t2 v.h.t3, pairBeat v.w.t0 v.w.t1, pairBeat v.w.t2 v.w.t3]

/-- The high half of a beat as a 16-bit value (20_memory.md R44). -/
def highHalf (b : Beat) : S16 := b.extractLsb' 16 16

/-- The low half of a beat as a 16-bit value (20_memory.md R44). -/
def lowHalf (b : Beat) : S16 := b.extractLsb' 0 16

/-- A snapshot from its four beats (20_memory.md R44). -/
def snapshotOfBeats (b0 b1 b2 b3 : Beat) : LmsState :=
  ⟨⟨highHalf b0, lowHalf b0, highHalf b1, lowHalf b1⟩, ⟨highHalf b2, lowHalf b2, highHalf b3, lowHalf b3⟩⟩

end Sys2Proof
end

