-- ==== Sys2Proof/Syntax.lean ====
section
/-! DEFINITION. The command set: one constructor per row of the opcode map (30_encoding.md R63), with the
operands of R64. -/

namespace Sys2Proof

/-- A command with its operands, read from the header and the payload (30_encoding.md R63, R64). -/
inductive Instr where
  | nop
  | lmsInit (c : Channel)
  | lmsLoad (c : Channel) (snap : LmsState)
  | lmsStore (c : Channel)
  | lmsPredict (c : Channel)
  | lmsUpdate (c : Channel) (residual : BitVec 32) (sample : S16)
  | sfLookup (sfq : Sfq)
  | dequant (sfq : Sfq) (r : Code)
  | quantize (sfq : Sfq) (e : BitVec 32)
  | sliceDecode (c : Channel) (slice : BitVec 64)
  | sliceEncode (c : Channel) (samples : List S16)
deriving DecidableEq, Repr

/-- The defined opcodes, named as the opcode map names them (30_encoding.md R63). -/
inductive Opcode where
  | nop
  | lmsInit
  | lmsLoad
  | lmsStore
  | lmsPredict
  | lmsUpdate
  | sfLookup
  | dequant
  | quantize
  | sliceDecode
  | sliceEncode
deriving DecidableEq, Repr

end Sys2Proof
end

