-- ==== Sys2Proof/WellFormed.lean ====
section
/-! DEFINITION. Which commands have an encoding. The types of `Instr` bound every field but the number of
samples of SLICE_ENCODE. -/

namespace Sys2Proof

/-- A command has an encoding when its operands fit their fields: SLICE_ENCODE's sample count is the 5-bit
`CNT` field, 0 to 31 (30_encoding.md R61, R70). Counts of 21 to 31 are encodable and end with `ERR_COUNT`
(60_exceptions.md R162). -/
def Instr.wellFormed : Instr → Bool
  | .nop => true
  | .lmsInit _ => true
  | .lmsLoad _ _ => true
  | .lmsStore _ => true
  | .lmsPredict _ => true
  | .lmsUpdate _ _ _ => true
  | .sfLookup _ => true
  | .dequant _ _ => true
  | .quantize _ _ => true
  | .sliceDecode _ _ => true
  | .sliceEncode _ samples => decide (samples.length ≤ 31)

end Sys2Proof
end

