-- ==== Sys2Proof/Decode.lean ====
section
/-! DEFINITION. The command decoder, total on any beats, and after it the encoder (30_encoding.md R60 to R66). -/

namespace Sys2Proof

/-- The `OP` field of a header (30_encoding.md R61). -/
def hdrOp (hdr : Beat) : BitVec 8 := hdr.extractLsb' 24 8

/-- The `CH` field (30_encoding.md R61). -/
def hdrCh (hdr : Beat) : Channel := hdr.extractLsb' 16 8

/-- The `SFQ` field (30_encoding.md R61). -/
def hdrSfq (hdr : Beat) : Sfq := hdr.extractLsb' 12 4

/-- The `CODE` field (30_encoding.md R61). -/
def hdrCode (hdr : Beat) : Code := hdr.extractLsb' 8 3

/-- The `CNT` field (30_encoding.md R61). -/
def hdrCnt (hdr : Beat) : BitVec 5 := hdr.extractLsb' 0 5

/-- The value of `OP` for each defined opcode (30_encoding.md R63). -/
def Opcode.byte : Opcode → BitVec 8
  | .nop => 0x00
  | .lmsInit => 0x01
  | .lmsLoad => 0x02
  | .lmsStore => 0x03
  | .lmsPredict => 0x04
  | .lmsUpdate => 0x05
  | .sfLookup => 0x08
  | .dequant => 0x09
  | .quantize => 0x0A
  | .sliceDecode => 0x10
  | .sliceEncode => 0x11

/-- The defined opcode with a given `OP` value; every other value is reserved (30_encoding.md R63, R65). -/
def opcodeOfByte (b : BitVec 8) : Option Opcode :=
  match b.toNat with
  | 0x00 => some .nop
  | 0x01 => some .lmsInit
  | 0x02 => some .lmsLoad
  | 0x03 => some .lmsStore
  | 0x04 => some .lmsPredict
  | 0x05 => some .lmsUpdate
  | 0x08 => some .sfLookup
  | 0x09 => some .dequant
  | 0x0A => some .quantize
  | 0x10 => some .sliceDecode
  | 0x11 => some .sliceEncode
  | _ => none

/-- The "mask" column of the opcode map: the bits a well-formed header must match (30_encoding.md R63). -/
def Opcode.mask : Opcode → Beat
  | .nop => 0xFFFFFFFF
  | .lmsInit => 0xFF00FFFF
  | .lmsLoad => 0xFF00FFFF
  | .lmsStore => 0xFF00FFFF
  | .lmsPredict => 0xFF00FFFF
  | .lmsUpdate => 0xFF00FFFF
  | .sfLookup => 0xFFFF0FFF
  | .dequant => 0xFFFF08FF
  | .quantize => 0xFFFF0FFF
  | .sliceDecode => 0xFF00FFFF
  | .sliceEncode => 0xFF00FFE0

/-- The "match" column of the opcode map (30_encoding.md R63). -/
def Opcode.matchWord : Opcode → Beat
  | .nop => 0x00000000
  | .lmsInit => 0x01000000
  | .lmsLoad => 0x02000000
  | .lmsStore => 0x03000000
  | .lmsPredict => 0x04000000
  | .lmsUpdate => 0x05000000
  | .sfLookup => 0x08000000
  | .dequant => 0x09000000
  | .quantize => 0x0A000000
  | .sliceDecode => 0x10000000
  | .sliceEncode => 0x11000000

/-- `L(hdr)`, the number of payload beats, from the header alone (30_encoding.md R66). SLICE_ENCODE's is
`CNT` even above 20; a reserved opcode has none. -/
def payloadLen (hdr : Beat) : Nat :=
  match (hdrOp hdr).toNat with
  | 0x02 => 4
  | 0x05 => 2
  | 0x0A => 1
  | 0x10 => 2
  | 0x11 => (hdrCnt hdr).toNat
  | _ => 0

/-- Why a beat sequence is no command. `incomplete`: a header or payload beat has still to arrive
(70_reset_and_hazards.md R186), which is a wait and no error. `reservedOpcode`: `ERR_OPCODE`;
`reservedBits`: `ERR_RSVD` (60_exceptions.md R161). -/
inductive Reject where
  | incomplete
  | reservedOpcode
  | reservedBits
deriving DecidableEq, Repr

/-- What the decoder answers: a command and the beats after it, or the reason there is none. -/
inductive Decoded where
  | command (i : Instr) (rest : List Beat)
  | rejected (why : Reject)
deriving DecidableEq, Repr

/-- Payload beat `k`. The decoder asks only for beats that have arrived. -/
def payloadBeat (payload : List Beat) (k : Nat) : Beat := payload.getD k 0

/-- Operand assembly (30_encoding.md R64): header fields are zero-extended, payload operands are read as
20_memory.md R43 to R45 give. -/
def Opcode.assemble (op : Opcode) (hdr : Beat) (payload : List Beat) : Instr :=
  match op with
  | .nop => .nop
  | .lmsInit => .lmsInit (hdrCh hdr)
  | .lmsLoad => .lmsLoad (hdrCh hdr) (snapshotOfBeats (payloadBeat payload 0) (payloadBeat payload 1)
      (payloadBeat payload 2) (payloadBeat payload 3))
  | .lmsStore => .lmsStore (hdrCh hdr)
  | .lmsPredict => .lmsPredict (hdrCh hdr)
  | .lmsUpdate => .lmsUpdate (hdrCh hdr) (payloadBeat payload 0) (sampleOfBeat (payloadBeat payload 1))
  | .sfLookup => .sfLookup (hdrSfq hdr)
  | .dequant => .dequant (hdrSfq hdr) (hdrCode hdr)
  | .quantize => .quantize (hdrSfq hdr) (payloadBeat payload 0)
  | .sliceDecode => .sliceDecode (hdrCh hdr) (sliceOfBeats (payloadBeat payload 0) (payloadBeat payload 1))
  | .sliceEncode => .sliceEncode (hdrCh hdr) (payload.map sampleOfBeat)

/-- What a header and its whole payload decode to (30_encoding.md R62, R65): a reserved opcode is rejected
first, then a set bit in a reserved-zero position (60_exceptions.md R161, R164). -/
def decodeWhole (hdr : Beat) (payload : List Beat) (rest : List Beat) : Decoded :=
  match opcodeOfByte (hdrOp hdr) with
  | none => .rejected .reservedOpcode
  | some op =>
    if hdr &&& op.mask = op.matchWord then .command (op.assemble hdr payload) rest
    else .rejected .reservedBits

/-- The decoder: a header, its `L(hdr)` payload beats, and the beats after them (30_encoding.md R60, R66).
Nothing is checked before the last payload beat is there (60_exceptions.md R164). -/
def decode (beats : List Beat) : Decoded :=
  match beats with
  | [] => .rejected .incomplete
  | hdr :: more =>
    if more.length < payloadLen hdr then .rejected .incomplete
    else decodeWhole hdr (more.take (payloadLen hdr)) (more.drop (payloadLen hdr))

/-- The opcode of a command. -/
def Instr.opcode : Instr → Opcode
  | .nop => .nop
  | .lmsInit _ => .lmsInit
  | .lmsLoad _ _ => .lmsLoad
  | .lmsStore _ => .lmsStore
  | .lmsPredict _ => .lmsPredict
  | .lmsUpdate _ _ _ => .lmsUpdate
  | .sfLookup _ => .sfLookup
  | .dequant _ _ => .dequant
  | .quantize _ _ => .quantize
  | .sliceDecode _ _ => .sliceDecode
  | .sliceEncode _ _ => .sliceEncode

/-- A header from its fields, reserved bits zero (30_encoding.md R61, R70). -/
def makeHeader (op : BitVec 8) (c : Channel) (sfq : Sfq) (r : Code) (n : BitVec 5) : Beat :=
  op ++ c ++ sfq ++ 0#1 ++ r ++ 0#3 ++ n

/-- The header beat of a command (30_encoding.md R63, R70). -/
def encodeHeader : Instr → Beat
  | .nop => makeHeader 0x00 0 0 0 0
  | .lmsInit c => makeHeader 0x01 c 0 0 0
  | .lmsLoad c _ => makeHeader 0x02 c 0 0 0
  | .lmsStore c => makeHeader 0x03 c 0 0 0
  | .lmsPredict c => makeHeader 0x04 c 0 0 0
  | .lmsUpdate c _ _ => makeHeader 0x05 c 0 0 0
  | .sfLookup sfq => makeHeader 0x08 0 sfq 0 0
  | .dequant sfq r => makeHeader 0x09 0 sfq r 0
  | .quantize sfq _ => makeHeader 0x0A 0 sfq 0 0
  | .sliceDecode c _ => makeHeader 0x10 c 0 0 0
  | .sliceEncode c samples => makeHeader 0x11 c 0 0 (BitVec.ofNat 5 samples.length)

/-- The payload beats of a command (30_encoding.md R64, R70). -/
def encodePayload : Instr → List Beat
  | .nop => []
  | .lmsInit _ => []
  | .lmsLoad _ snap => beatsOfSnapshot snap
  | .lmsStore _ => []
  | .lmsPredict _ => []
  | .lmsUpdate _ residual sample => [residual, beatOfSample sample]
  | .sfLookup _ => []
  | .dequant _ _ => []
  | .quantize _ e => [e]
  | .sliceDecode _ slice => beatsOfSlice slice
  | .sliceEncode _ samples => samples.map beatOfSample

/-- The beats of a command: its header, then its payload (30_encoding.md R60, R70). -/
def encode (i : Instr) : List Beat := encodeHeader i :: encodePayload i

/-- The 32 beats whose bits are `w`, bit 0 the least significant bit of the first beat, every bit from
`nbits` on zero; 32 beats hold the longest command, a header and 31 payload beats. -/
def tableBeats (nbits w : Nat) : List Beat :=
  (List.range 32).map fun k => BitVec.ofNat 32 ((w % 2 ^ nbits) >>> (32 * k))

/-- The command the decoder reads from the bits of an opcode-table row. -/
def decodeTableWord (nbits w : Nat) : Option Instr :=
  match decode (tableBeats nbits w) with
  | .command i _ => some i
  | .rejected _ => none

end Sys2Proof
end

