-- ==== Sys2Proof/Machine/Flags.lean ====
section
/-! DEFINITION. The block keeps no flags (10_state.md R26). What reports a command's outcome is the status
beat of its response: the codes (60_exceptions.md R160) and the layout (30_encoding.md R68). -/

namespace Sys2Proof.Machine

/-- How a command ended (60_exceptions.md R160). -/
inductive Status where
  | ok
  | errOpcode
  | errRsvd
  | errChannel
  | errCount
deriving DecidableEq, Repr

/-- The code in bits `[7:0]` of the status beat (60_exceptions.md R160). -/
def Status.code : Status → BitVec 8
  | .ok => 0x00
  | .errOpcode => 0x01
  | .errRsvd => 0x02
  | .errChannel => 0x03
  | .errCount => 0x04

/-- The status beat: the header's `OP` and `CH`, zeros, the code (30_encoding.md R68). -/
def statusWord (op : BitVec 8) (ch : Channel) (st : Status) : Beat := op ++ ch ++ 0#8 ++ st.code

end Sys2Proof.Machine
end

