-- ==== Sys2Proof/Config.lean ====
section
/-! DEFINITION. What the spec fixes for every block, what a build fixes, and the one free value
(00_scope.md R5, R6; 70_reset_and_hazards.md R188). -/

namespace Sys2Proof.Config

/-- `SAMPLES_PER_SLICE` (00_scope.md R5). -/
def samplesPerSlice : Nat := 20

/-- `PRED_SHIFT` (00_scope.md R5). -/
def predShift : Nat := 13

/-- `DELTA_SHIFT` (00_scope.md R5). -/
def deltaShift : Nat := 4

/-- `INIT_HISTORY` and `INIT_WEIGHTS` (00_scope.md R5). -/
def initLms : LmsState := ⟨⟨0, 0, 0, 0⟩, ⟨0, 0, -1, 2⟩⟩

/-- DESIGN CHOICE (log 1, unsafe for statements about `State.reset` alone): the number of slots of the block
that `State.reset` is the reset state of. The spec leaves `P_NCH` open (00_scope.md R6); its vectors assume
this value. Everywhere else `P_NCH` is the length of the bank, whatever that is. -/
def resetNch : Nat := 4

/-- FREE VALUE (log 4, safe): whether `cmd_ready` is high at clock edge number `k` when a response is still
being drained and the block could hold another beat (70_reset_and_hazards.md R188: unspecified;
93_implementation_defined.md I12: any value). -/
opaque cmdReadyWhileDraining (k : Nat) : Bool

end Sys2Proof.Config
end

