-- ==== Sys2Proof/Machine/State.lean ====
section
/-! DEFINITION. The machine's state as plain data: the block's own state (10_state.md R31), the host's side of
the two ports (20_memory.md R41), and one counter of the model's; and the state after reset. -/

namespace Sys2Proof.Machine

/-- The command parser (10_state.md R29): waiting for a header, or holding header `hdr` and the payload beats
received so far, oldest first. `k` of the spec's `COLLECT(hdr, k, L)` is the number of those beats, and `L` is
a function of `hdr` (30_encoding.md R66). -/
inductive Parser where
  | idle
  | collect (hdr : Beat) (got : List Beat)
deriving DecidableEq, Repr

/-- The host's levels on the block's input pins at one rising edge of `clk` (20_memory.md R41). `cmdValid`
offers the head of `State.cmdStream` as `cmd_data`. -/
structure HostEdge where
  rst : Bool
  cmdValid : Bool
  rspReady : Bool
deriving DecidableEq, Repr

/-- The whole state. `bank`, `parser` and `rspQueue` are the block's (10_state.md R31); `P_NCH` is the length
of `bank` (00_scope.md R6, log 1). `cmdStream`, `edges` and `rspTaken` are the host's side of the ports
(logs 2 and 3). `edgeCount` is the model's, and only feeds the free value of log 4. -/
structure State where
  /-- The LMS state bank, slot 0 first (10_state.md R20). -/
  bank : List LmsState
  /-- The command parser (10_state.md R29). -/
  parser : Parser
  /-- Response words produced and not yet accepted by the host, next one first (10_state.md R29). -/
  rspQueue : List Beat
  /-- Command beats the host has still to send, next one first (20_memory.md R41). -/
  cmdStream : List Beat
  /-- The host's levels at the coming edges, next edge first (20_memory.md R41). -/
  edges : List HostEdge
  /-- Response beats the host has accepted, oldest first (20_memory.md R41). -/
  rspTaken : List Beat
  /-- The number of clock edges so far (log 4). -/
  edgeCount : Nat
deriving DecidableEq, Repr

/-- The reasons a step can stop with a fault: there is none. An error is a status code in the response, never
a trap, and nothing stops the block (60_exceptions.md R160, R167; 30_encoding.md R65). Nobody raises a fault. -/
inductive Fault where
deriving DecidableEq, Repr

/-- The reasons a step can be refused. -/
inductive Refusal where
  /-- Safe: the arm of `exec` for an instruction that has no meaning yet. No arm raises it: every instruction
  has its meaning. -/
  | notModelled (mnemonic : String)
deriving DecidableEq, Repr

/-- The state after reset of a block of `nch` slots: every slot holds the initial value, the parser is IDLE and
the response queue is empty (70_reset_and_hazards.md R180; 10_state.md R24, R31). The host has nothing to
send, no levels listed and nothing accepted (logs 2 and 3). -/
def State.resetWith (nch : Nat) : State where
  bank := List.replicate nch Config.initLms
  parser := .idle
  rspQueue := []
  cmdStream := []
  edges := []
  rspTaken := []
  edgeCount := 0

/-- The state after reset, of a block of `Config.resetNch` slots (log 1). -/
def State.reset : State := State.resetWith Config.resetNch

end Sys2Proof.Machine
end

