-- ==== Sys2Proof/Machine/Ops.lean ====
section
/-! DEFINITION. The operations on the state that the commands share: reading and writing a slot, sending a
response, and taking an error. -/

namespace Sys2Proof.Machine

/-- What a command answers. -/
abbrev Result := Host.Outcome State Fault Refusal

/-- `P_NCH`, the number of channel slots (00_scope.md R6). -/
def State.nch (s : State) : Nat := s.bank.length

/-- `LMS(c)`: slot `c`, where there is one (10_state.md R20, 20_memory.md R40). -/
def State.slot (s : State) (c : Channel) : Option LmsState := s.bank[c.toNat]?

/-- `LMS(c) <- v` (00_scope.md R11). -/
def State.setSlot (s : State) (c : Channel) (v : LmsState) : State :=
  { s with bank := s.bank.set c.toNat v }

/-- `SendRsp` of each word in turn: the words join the response queue (00_scope.md R12, 20_memory.md R41). -/
def State.respond (s : State) (words : List Beat) : State :=
  { s with rspQueue := s.rspQueue ++ words }

/-- A command completes: one status beat `OK`, then its result beats (30_encoding.md R60, R67). -/
def complete (op : Opcode) (ch : Channel) (results : List Beat) (s : State) : Result :=
  .next (s.respond (statusWord op.byte ch .ok :: results))

/-- TAKING AN ERROR, `raise Status(code)` (00_scope.md R12, 60_exceptions.md R163): the response is the status
beat alone and no slot is written. The block has no other exception entry, and no return from one
(60_exceptions.md R167, R169). -/
def raise (op : BitVec 8) (ch : Channel) (st : Status) (s : State) : Result :=
  .next (s.respond [statusWord op ch st])

/-- A command that names slot `c`: `ERR_CHANNEL` when there is no such slot, otherwise `k` on what the slot
holds (60_exceptions.md R161, 20_memory.md R40). -/
def withSlot (op : Opcode) (c : Channel) (s : State) (k : LmsState → Result) : Result :=
  match s.slot c with
  | none => raise op.byte c .errChannel s
  | some v => k v

end Sys2Proof.Machine
end

