-- ==== Sys2Proof/Machine/Control.lean ====
section
/-! DEFINITION. The control command NOP (43_control.md R150). -/

namespace Sys2Proof.Machine

/-- NOP: report completion (43_control.md R150). -/
def execNop (s : State) : Result := complete .nop 0 [] s

end Sys2Proof.Machine
end

