-- ==== Sys2Proof/Machine/Arith.lean ====
section
/-! DEFINITION. The named functions on exact integers that every rule uses (00_scope.md R8, R10). -/

namespace Sys2Proof.Machine

/-- Arithmetic right shift, rounding toward minus infinity: `floor(x / 2^k)` (00_scope.md R10). -/
def asr (x : Int) (k : Nat) : Int := x / (2 ^ k : Nat)

/-- Clamping to signed 16 bits (00_scope.md R10). -/
def clamp16 (x : Int) : Int := min 32767 (max (-32768) x)

/-- The low 16 bits of an integer; its two's-complement reading is the spec's `wrap16` (00_scope.md R9, R10). -/
def wrap16 (x : Int) : S16 := BitVec.ofInt 16 x

/-- The rational `num / den` rounded to the nearest integer, halves away from zero (00_scope.md R10). -/
def rhaz (num : Int) (den : Nat) : Int :=
  if 0 ≤ num then (2 * num + den) / (2 * den) else -((2 * -num + den) / (2 * den))

/-- The distance of two integers, exact (00_scope.md R10, `abs`). -/
def absDiff (x y : Int) : Nat := (x - y).natAbs

end Sys2Proof.Machine
end

