-- ==== Sys2Proof/Machine/Lms.lean ====
section
/-! DEFINITION. The LMS predictor's two operations, and LMS_INIT, LMS_LOAD, LMS_STORE, LMS_PREDICT and
LMS_UPDATE (41_lms.md R100 to R107). -/

namespace Sys2Proof.Machine

/-- The dot product of history and weights, exact (41_lms.md R100; 90_conflicts.md C2). -/
def dot (v : LmsState) : Int :=
  v.h.t0.toInt * v.w.t0.toInt + v.h.t1.toInt * v.w.t1.toInt + v.h.t2.toInt * v.w.t2.toInt
    + v.h.t3.toInt * v.w.t3.toInt

/-- `predict(h, w)`: the dot product shifted right, not clamped (41_lms.md R100). -/
def predict (v : LmsState) : Int := asr (dot v) Config.predShift

/-- `delta` of an update (41_lms.md R101). -/
def updateDelta (residual : Int) : Int := clamp16 (asr residual Config.deltaShift)

/-- One weight of an update: a negative history entry adds `delta`, any other, zero too, subtracts it, with
wrap-around (41_lms.md R101; 90_conflicts.md C1). -/
def updateWeight (h w : S16) (delta : Int) : S16 :=
  if h.toInt < 0 then wrap16 (w.toInt + delta) else wrap16 (w.toInt - delta)

/-- The weights of an update, each steered by its own history entry before the shift (41_lms.md R101). -/
def updateWeights (v : LmsState) (delta : Int) : Taps where
  t0 := updateWeight v.h.t0 v.w.t0 delta
  t1 := updateWeight v.h.t1 v.w.t1 delta
  t2 := updateWeight v.h.t2 v.w.t2 delta
  t3 := updateWeight v.h.t3 v.w.t3 delta

/-- The history shifts left by one and takes the sample as its newest entry (41_lms.md R101, 10_state.md R21). -/
def shiftHistory (h : Taps) (sample : S16) : Taps := ⟨h.t1, h.t2, h.t3, sample⟩

/-- `update(h, w, residual, sample)` (41_lms.md R101). -/
def update (v : LmsState) (residual : Int) (sample : S16) : LmsState :=
  ⟨shiftHistory v.h sample, updateWeights v (updateDelta residual)⟩

/-- LMS_INIT: set a slot to the initial state (41_lms.md R103). -/
def execLmsInit (c : Channel) (s : State) : Result :=
  withSlot .lmsInit c s fun _ => complete .lmsInit c [] (s.setSlot c Config.initLms)

/-- LMS_LOAD: write a slot from a snapshot (41_lms.md R104). -/
def execLmsLoad (c : Channel) (snap : LmsState) (s : State) : Result :=
  withSlot .lmsLoad c s fun _ => complete .lmsLoad c [] (s.setSlot c snap)

/-- LMS_STORE: read a slot as a snapshot (41_lms.md R105). -/
def execLmsStore (c : Channel) (s : State) : Result :=
  withSlot .lmsStore c s fun v => complete .lmsStore c (beatsOfSnapshot v) s

/-- LMS_PREDICT: compute the prediction for the next sample (41_lms.md R106). -/
def execLmsPredict (c : Channel) (s : State) : Result :=
  withSlot .lmsPredict c s fun v => complete .lmsPredict c [sext32 (predict v)] s

/-- LMS_UPDATE: apply one update step (41_lms.md R107). -/
def execLmsUpdate (c : Channel) (residual : BitVec 32) (sample : S16) (s : State) : Result :=
  withSlot .lmsUpdate c s fun v =>
    complete .lmsUpdate c [] (s.setSlot c (update v residual.toInt sample))

end Sys2Proof.Machine
end

