-- ==== Sys2Proof/Machine/Quant.lean ====
section
/-! DEFINITION. The scale-factor and dequantization tables, the quantizer, and SF_LOOKUP, DEQUANT and
QUANTIZE (40_tables_quant.md R80 to R87). -/

namespace Sys2Proof.Machine

/-- `SF[sfq] = rhaz((sfq + 1) ^ 2.75)`, the values of 40_tables_quant.md R80. -/
def scaleFactor (sfq : Sfq) : Nat :=
  [1, 7, 21, 45, 84, 138, 211, 304, 421, 562, 731, 928, 1157, 1419, 1715, 2048].getD sfq.toNat 0

/-- `4 * SHAPE[r]`: every entry of `SHAPE` is a multiple of 1/4 (00_scope.md R5, 40_tables_quant.md R81). -/
def shapeQuarters (r : Code) : Int :=
  [3, -3, 10, -10, 18, -18, 28, -28].getD r.toNat 0

/-- `DEQ[sfq][r] = clamp16(rhaz(SF[sfq] * SHAPE[r]))` (40_tables_quant.md R81). -/
def deq (sfq : Sfq) (r : Code) : Int := clamp16 (rhaz (scaleFactor sfq * shapeQuarters r) 4)

/-- One comparison of the quantizer's scan: a strictly smaller distance replaces the best
(40_tables_quant.md R83). -/
def quantStep (sfq : Sfq) (e : Int) (best : Code) (r : Code) : Code :=
  if absDiff e (deq sfq r) < absDiff e (deq sfq best) then r else best

/-- The code whose dequantized value is nearest to `e`, ties to the lower code: the scan starts at code 0 and
goes up (40_tables_quant.md R83). -/
def quantCode (sfq : Sfq) (e : Int) : Code :=
  ([1, 2, 3, 4, 5, 6, 7] : List Code).foldl (quantStep sfq e) 0

/-- `quant(sfq, e)`: the code and its dequantized value (40_tables_quant.md R83). -/
def quant (sfq : Sfq) (e : Int) : Code × Int := (quantCode sfq e, deq sfq (quantCode sfq e))

/-- SF_LOOKUP: read one scale factor (40_tables_quant.md R85). -/
def execSfLookup (sfq : Sfq) (s : State) : Result :=
  complete .sfLookup 0 [zext32 (scaleFactor sfq)] s

/-- DEQUANT: read one dequantized residual (40_tables_quant.md R86). -/
def execDequant (sfq : Sfq) (r : Code) (s : State) : Result :=
  complete .dequant 0 [sext32 (deq sfq r)] s

/-- QUANTIZE: the nearest residual code to a target, and its value (40_tables_quant.md R87). -/
def execQuantize (sfq : Sfq) (e : BitVec 32) (s : State) : Result :=
  complete .quantize 0 [zext32 (quant sfq e.toInt).1.toNat, sext32 (quant sfq e.toInt).2] s

end Sys2Proof.Machine
end

