-- ==== Sys2Proof/Machine/Slice.lean ====
section
/-! DEFINITION. The slice word, the slice decoder and the slice encoder, and SLICE_DECODE and SLICE_ENCODE
(42_slice.md R120 to R134). -/

namespace Sys2Proof.Machine

/-- `unpack_sfq(slice)`: bits `[63:60]` (42_slice.md R120). -/
def unpackSfq (slice : BitVec 64) : Sfq := slice.extractLsb' 60 4

/-- `unpack_code(slice, j)`: bits `[59-3j : 57-3j]`, for `j` in `0..19` (42_slice.md R120). -/
def unpackCode (slice : BitVec 64) (j : Nat) : Code := slice.extractLsb' (57 - 3 * j) 3

/-- The 20 codes of a slice, earliest sample first (42_slice.md R120). -/
def unpackCodes (slice : BitVec 64) : List Code :=
  (List.range Config.samplesPerSlice).map (unpackCode slice)

/-- The code bits of a slice from position `j` on: code `j` at bit `57 - 3j`, unused positions zero
(42_slice.md R120). -/
def packCodes (j : Nat) : List Code → BitVec 64
  | [] => 0
  | r :: rs => (r.setWidth 64 <<< (57 - 3 * j)) ||| packCodes (j + 1) rs

/-- `pack(sfq, codes)` (42_slice.md R120). -/
def pack (sfq : Sfq) (codes : List Code) : BitVec 64 := (sfq.setWidth 64 <<< 60) ||| packCodes 0 codes

/-- The reconstructed sample: prediction plus dequantized residual, exact sum, then clamped
(42_slice.md R121, R123). -/
def reconstruct (v : LmsState) (dq : Int) : Int := clamp16 (predict v + dq)

/-- The slot after one decode or encode step: `update` with the dequantized residual and the clamped sample
(42_slice.md R121, R123; 41_lms.md R102). -/
def stepSlot (v : LmsState) (sfq : Sfq) (r : Code) : LmsState :=
  update v (deq sfq r) (wrap16 (reconstruct v (deq sfq r)))

/-- The output samples of decode steps for a sequence of codes (42_slice.md R121). -/
def decodeSamples (sfq : Sfq) : List Code → LmsState → List Int
  | [], _ => []
  | r :: rs, v => reconstruct v (deq sfq r) :: decodeSamples sfq rs (stepSlot v sfq r)

/-- The slot after decode steps for a sequence of codes (42_slice.md R121). -/
def decodeSlot (sfq : Sfq) : List Code → LmsState → LmsState
  | [], v => v
  | r :: rs, v => decodeSlot sfq rs (stepSlot v sfq r)

/-- SLICE_DECODE: decode one slice into 20 samples, always 20 steps (42_slice.md R122; 90_conflicts.md C3). -/
def execSliceDecode (c : Channel) (slice : BitVec 64) (s : State) : Result :=
  withSlot .sliceDecode c s fun v =>
    complete .sliceDecode c ((decodeSamples (unpackSfq slice) (unpackCodes slice) v).map sext32)
      (s.setSlot c (decodeSlot (unpackSfq slice) (unpackCodes slice) v))

/-- The code one encode step chooses: the nearest to the true residual, exact and unclamped (42_slice.md R123). -/
def chooseCode (v : LmsState) (sfq : Sfq) (x : S16) : Code := quantCode sfq (x.toInt - predict v)

/-- The error of one encode step, against the clamped sample (42_slice.md R123). -/
def stepError (v : LmsState) (sfq : Sfq) (x : S16) (r : Code) : Nat :=
  absDiff x.toInt (reconstruct v (deq sfq r))

/-- A finished candidate: its scale factor, codes, final slot state and total error (42_slice.md R124). -/
structure Trial where
  sfq : Sfq
  codes : List Code
  slot : LmsState
  err : Nat
deriving DecidableEq, Repr

/-- A running error has reached the best total so far; `none` is the spec's `+inf` (42_slice.md R125). -/
def reached (best : Option Nat) (err : Nat) : Bool :=
  match best with
  | none => false
  | some b => decide (b ≤ err)

/-- `run_candidate` from the current sample on, with the candidate as it stands (42_slice.md R124): `none` is
`PRUNED`, which is checked after every sample (R125). -/
def runCandidate (best : Option Nat) : List S16 → Trial → Option Trial
  | [], t => some t
  | x :: xs, t =>
    let r := chooseCode t.slot t.sfq x
    let err := t.err + stepError t.slot t.sfq x r
    if reached best err then none
    else runCandidate best xs ⟨t.sfq, t.codes ++ [r], stepSlot t.slot t.sfq r, err⟩

/-- A candidate before its first sample: the slice-start state, error 0 (42_slice.md R124, R131). -/
def freshTrial (v : LmsState) (sfq : Sfq) : Trial := ⟨sfq, [], v, 0⟩

/-- One round of the selection: a finished candidate replaces the winner only if its error is strictly lower
(42_slice.md R126). -/
def selectStep (v : LmsState) (xs : List S16) (win : Option Trial) (sfq : Sfq) : Option Trial :=
  match runCandidate (win.map Trial.err) xs (freshTrial v sfq) with
  | none => win
  | some t => if reached (win.map Trial.err) t.err then win else some t

/-- The candidates in the order they run (42_slice.md R126). -/
def candidates : List Sfq := (List.range 16).map (BitVec.ofNat 4)

/-- The winner of the 16-way search (42_slice.md R126). Candidate 0 always finishes, so there always is one;
the unused default is the untouched candidate 0. -/
def selectWinner (v : LmsState) (xs : List S16) : Trial :=
  (candidates.foldl (selectStep v xs) none).getD (freshTrial v 0)

/-- The result beats of SLICE_ENCODE: the packed slice and the winner's total error (42_slice.md R127, R128). -/
def encodeResults (t : Trial) : List Beat := beatsOfSlice (pack t.sfq t.codes) ++ [zext32 t.err]

/-- SLICE_ENCODE: encode up to 20 samples into one slice; more than 20 is `ERR_COUNT`, which comes after
`ERR_CHANNEL` (42_slice.md R128; 60_exceptions.md R162, R164). -/
def execSliceEncode (c : Channel) (samples : List S16) (s : State) : Result :=
  withSlot .sliceEncode c s fun v =>
    if Config.samplesPerSlice < samples.length then raise Opcode.sliceEncode.byte c .errCount s
    else
      complete .sliceEncode c (encodeResults (selectWinner v samples))
        (s.setSlot c (selectWinner v samples).slot)

end Sys2Proof.Machine
end

