-- ==== Sys2Proof/Machine/Dispatch.lean ====
section
/-! DEFINITION. Which meaning each command calls (30_encoding.md R63). -/

namespace Sys2Proof.Machine

def exec (i : Instr) (s : State) : Host.Outcome State Fault Refusal :=
  match i with
  | .nop => Sys2Proof.Machine.execNop s
  | .lmsInit c => Sys2Proof.Machine.execLmsInit c s
  | .lmsLoad c snap => Sys2Proof.Machine.execLmsLoad c snap s
  | .lmsStore c => Sys2Proof.Machine.execLmsStore c s
  | .lmsPredict c => Sys2Proof.Machine.execLmsPredict c s
  | .lmsUpdate c residual sample => Sys2Proof.Machine.execLmsUpdate c residual sample s
  | .sfLookup sfq => Sys2Proof.Machine.execSfLookup sfq s
  | .dequant sfq r => Sys2Proof.Machine.execDequant sfq r s
  | .quantize sfq e => Sys2Proof.Machine.execQuantize sfq e s
  | .sliceDecode c slice => Sys2Proof.Machine.execSliceDecode c slice s
  | .sliceEncode c samples => Sys2Proof.Machine.execSliceEncode c samples s

end Sys2Proof.Machine
end

