-- ==== Sys2Proof/Machine/Ports.lean ====
section
/-! DEFINITION. The two ports, the command parser and reset: what happens at a rising edge of `clk` besides
executing a command (20_memory.md R41; 10_state.md R29; 70_reset_and_hazards.md R180, R181, R186, R188). -/

namespace Sys2Proof.Machine

/-- The levels at an edge the host's list says nothing of (log 3): no reset, the host accepts responses, and
offers a command beat only when no response is pending (the host of 70_reset_and_hazards.md R188 that sends
one command and reads its whole response before the next). -/
def State.defaultEdge (s : State) : HostEdge where
  rst := false
  cmdValid := s.rspQueue.isEmpty
  rspReady := true

/-- The host's levels at the coming edge (20_memory.md R41). -/
def State.hostEdge (s : State) : HostEdge := s.edges.headD s.defaultEdge

/-- The edge has passed: the host's next levels come up. -/
def State.advance (s : State) : State :=
  { s with edges := s.edges.tail, edgeCount := s.edgeCount + 1 }

/-- The parser holds a header and all `L(hdr)` of its payload beats (10_state.md R29, 30_encoding.md R66). -/
def Parser.ready : Parser → Bool
  | .idle => false
  | .collect hdr got => decide (payloadLen hdr ≤ got.length)

/-- A beat arrives: the header in `IDLE`, a payload beat in `COLLECT` (10_state.md R29). -/
def Parser.push (p : Parser) (b : Beat) : Parser :=
  match p with
  | .idle => .collect b []
  | .collect hdr got => .collect hdr (got ++ [b])

/-- The pin `rsp_valid` (20_memory.md R41; low in reset, 70_reset_and_hazards.md R180). -/
def State.rspValid (s : State) : Bool := !s.hostEdge.rst && !s.rspQueue.isEmpty

/-- The pin `rsp_data`: the next response word, where there is one (20_memory.md R41). -/
def State.rspData (s : State) : Option Beat := s.rspQueue.head?

/-- The pin `cmd_ready` (20_memory.md R41): low in reset (70_reset_and_hazards.md R180) and while the parser
holds a whole command (10_state.md R29: it holds one); a free value while a response is being drained
(70_reset_and_hazards.md R188, log 4); high otherwise. -/
def State.cmdReady (s : State) : Bool :=
  !s.hostEdge.rst && !s.parser.ready &&
    (s.rspQueue.isEmpty || Config.cmdReadyWhileDraining s.edgeCount)

/-- A response beat moves to the host (20_memory.md R41). -/
def State.takeResponse (s : State) : State :=
  match s.rspQueue with
  | [] => s
  | w :: ws => { s with rspQueue := ws, rspTaken := s.rspTaken ++ [w] }

/-- A command beat moves to the parser (20_memory.md R41, `RecvCmd` of 00_scope.md R12). With no beat to offer,
nothing moves and the parser waits. -/
def State.takeCommand (s : State) : State :=
  match s.cmdStream with
  | [] => s
  | b :: bs => { s with cmdStream := bs, parser := s.parser.push b }

/-- What moves on the ports at an edge outside reset: on each port at most one beat, where `valid` and `ready`
are both high before the edge (20_memory.md R41). -/
def State.movePorts (s : State) : State :=
  let t := if s.rspValid && s.hostEdge.rspReady then s.takeResponse else s
  if s.hostEdge.cmdValid && s.cmdReady then t.takeCommand else t

/-- `rst` high at an edge (70_reset_and_hazards.md R180, R181): every slot gets the initial value, the parser
goes to `IDLE` and the response queue is emptied. What the host has not sent or has already accepted is not
the block's. -/
def State.applyReset (s : State) : State :=
  { s with bank := s.bank.map fun _ => Config.initLms, parser := .idle, rspQueue := [] }

/-- A command executes when its payload has arrived whole and the previous response has been accepted whole
(10_state.md R29; 70_reset_and_hazards.md R186, R188). -/
def State.canExecute (s : State) : Bool := s.parser.ready && s.rspQueue.isEmpty

/-- The command's beats are consumed: the next beat is a header (30_encoding.md R66, 20_memory.md R53). -/
def State.endCollect (s : State) : State := { s with parser := .idle }

end Sys2Proof.Machine
end

