-- ==== Sys2Proof/Machine/Run.lean ====
section
/-! DEFINITION. One rising edge of `clk` (20_memory.md R41, R46, R47): reset, or the execution of a whole
command, or the movement of beats on the ports. -/

namespace Sys2Proof.Machine

/-- What the collected beats of a command do: a well-formed command executes; a reserved opcode ends with
`ERR_OPCODE` and a set reserved bit with `ERR_RSVD` (60_exceptions.md R161, R164). An incomplete command
waits (70_reset_and_hazards.md R186). -/
def runDecoded (d : Decoded) (hdr : Beat) (s : State) : Result :=
  match d with
  | .command i _ => exec i s.endCollect
  | .rejected .reservedOpcode => raise (hdrOp hdr) (hdrCh hdr) .errOpcode s.endCollect
  | .rejected .reservedBits => raise (hdrOp hdr) (hdrCh hdr) .errRsvd s.endCollect
  | .rejected .incomplete => .next s

/-- The collected command ends, as one indivisible step (20_memory.md R47). -/
def runCollected (s : State) : Result :=
  match s.parser with
  | .idle => .next s
  | .collect hdr got => runDecoded (decode (hdr :: got)) hdr s

/-- One rising edge of `clk`. `rst` overrides everything (70_reset_and_hazards.md R180, R181); a whole command
with no response pending executes (R188); otherwise beats move on the ports (20_memory.md R41). -/
def clockEdge (s : State) : Result :=
  if s.hostEdge.rst then .next s.applyReset.advance
  else if s.canExecute then runCollected s.advance
  else .next s.movePorts.advance

/-- The parser with a header and the first `L(hdr)` of the beats after it (10_state.md R29). -/
def collectBeats (beats : List Beat) : Parser :=
  match beats with
  | [] => .idle
  | hdr :: more => .collect hdr (more.take (payloadLen hdr))

/-- The host's levels with `rst` low at the coming edge, all else as it was. -/
def releaseRst (edges : List HostEdge) : List HostEdge :=
  match edges with
  | [] => []
  | e :: es => { e with rst := false } :: es

end Sys2Proof.Machine
end

