-- ==== Sys2Proof/Machine/Step.lean ====
section
/-! DEFINITION. The step: one rising edge of `clk`. -/

namespace Sys2Proof.Machine

/-- One step is one rising edge of `clk` (20_memory.md R41). -/
def step (s : State) : Host.Outcome State Fault Refusal := clockEdge s

/-- The command whose bits are `w`, collected whole by the parser with no response pending and `rst` low, so
that the next step executes it (log 6: this stands for the edges at which the parser takes its beats). -/
def State.withFetchWord (s : State) (nbits w : Nat) : State :=
  { s with parser := collectBeats (tableBeats nbits w), rspQueue := [], edges := releaseRst s.edges }

end Sys2Proof.Machine
end

