-- ==== Sys2Proof/Safety.lean ====
section
/-! DEFINITION. The terms the statements use: the invariant of the state, the spec's tables and rules written a
second time as numbers and relations (not through the machine's own functions), and the encoder without
pruning. Nothing of the machine depends on this file. -/

namespace Sys2Proof.Safety

open Sys2Proof.Machine

/-! ## The invariant -/

/-- The parser never holds more payload beats than its header calls for (10_state.md R29, 30_encoding.md R66). -/
def parserFits : Parser → Bool
  | .idle => true
  | .collect hdr got => decide (got.length ≤ payloadLen hdr)

/-- What every run keeps: 1 to 255 slots (00_scope.md R6), a parser in one of its states (10_state.md R29), and at
most one response in the queue, the longest of which has 21 beats (20_memory.md R46; 30_encoding.md R67). -/
abbrev BlockInv (s : State) : Prop :=
  1 ≤ s.nch ∧ s.nch ≤ 255 ∧ parserFits s.parser = true ∧ s.rspQueue.length ≤ 21

/-- `k` steps, one clock edge each. -/
def steps : Nat → State → Result
  | 0, s => .next s
  | k + 1, s =>
    match step s with
    | .next t => steps k t
    | .fault r => .fault r
    | .refused r => .refused r

/-- The beats of the command being collected. -/
def parserBeats : Parser → List Beat
  | .idle => []
  | .collect hdr got => hdr :: got

/-- The coming edge is outside reset, the parser holds header `hdr` and exactly its `L(hdr)` payload beats `got`,
and no response is pending: the command executes at this edge (70_reset_and_hazards.md R186, R188). -/
def CommandReady (s : State) (hdr : Beat) (got : List Beat) : Prop :=
  s.hostEdge.rst = false ∧ s.parser = .collect hdr got ∧ got.length = payloadLen hdr ∧ s.rspQueue = []

/-- The coming edge executes no command: a response is pending, or the parser waits for a header or for a
payload beat (10_state.md R29; 70_reset_and_hazards.md R186, R188). -/
def Waiting (s : State) : Prop :=
  s.rspQueue ≠ [] ∨ s.parser = .idle ∨
    ∃ hdr got, s.parser = .collect hdr got ∧ got.length < payloadLen hdr

/-! ## Headers and status beats as numbers -/

/-- The value of `OP` (30_encoding.md R61). -/
def opOf (hdr : Beat) : Nat := hdr.toNat / 2 ^ 24

/-- The value of `CH` (30_encoding.md R61). -/
def chOf (hdr : Beat) : Nat := hdr.toNat / 2 ^ 16 % 2 ^ 8

/-- `OP` is in the opcode map: 0x00 to 0x05, 0x08 to 0x0A, 0x10, 0x11 (30_encoding.md R63, R65). -/
def definedOp (op : Nat) : Bool := op ≤ 0x05 || (0x08 ≤ op && op ≤ 0x0A) || op == 0x10 || op == 0x11

/-- Some reserved-zero bit of a defined header is set (30_encoding.md R62; the "Exceptions" lines of
40_tables_quant.md R85 to R87, 41_lms.md section 2, 42_slice.md R122, R128, 43_control.md R150). -/
def reservedBitSet (hdr : Beat) : Bool :=
  match opOf hdr with
  | 0x00 => hdr.toNat % 2 ^ 24 != 0
  | 0x08 => chOf hdr != 0 || hdr.toNat % 2 ^ 12 != 0
  | 0x09 => chOf hdr != 0 || hdr.toNat / 2 ^ 11 % 2 != 0 || hdr.toNat % 2 ^ 8 != 0
  | 0x0A => chOf hdr != 0 || hdr.toNat % 2 ^ 12 != 0
  | 0x11 => hdr.toNat / 2 ^ 5 % 2 ^ 11 != 0
  | _ => hdr.toNat % 2 ^ 16 != 0

/-- The opcode names a slot (60_exceptions.md R160, the `ERR_CHANNEL` row). -/
def namesSlot (op : Nat) : Bool := (0x01 ≤ op && op ≤ 0x05) || op == 0x10 || op == 0x11

/-- The status code of a command, from the header and `P_NCH` alone, in the order `ERR_OPCODE`, `ERR_RSVD`,
`ERR_CHANNEL`, `ERR_COUNT` (60_exceptions.md R160 to R162, R164). -/
def expectedStatus (hdr : Beat) (nch : Nat) : Nat :=
  if !definedOp (opOf hdr) then 1
  else if reservedBitSet hdr then 2
  else if namesSlot (opOf hdr) && nch ≤ chOf hdr then 3
  else if opOf hdr == 0x11 && 20 < hdr.toNat % 2 ^ 5 then 4
  else 0

/-- The `M` column of the opcode map (30_encoding.md R63). -/
def resultCount (op : Nat) : Nat :=
  match op with
  | 0x03 => 4
  | 0x04 => 1
  | 0x08 => 1
  | 0x09 => 1
  | 0x0A => 2
  | 0x10 => 20
  | 0x11 => 3
  | _ => 0

/-- The `L` function of 30_encoding.md R66. -/
def payloadCount (hdr : Beat) : Nat :=
  match opOf hdr with
  | 0x02 => 4
  | 0x05 => 2
  | 0x0A => 1
  | 0x10 => 2
  | 0x11 => hdr.toNat % 2 ^ 5
  | _ => 0

/-- A status beat as a number: `OP` in `[31:24]`, `CH` in `[23:16]`, the code in `[7:0]` (30_encoding.md R68). -/
def statusBeat (op ch code : Nat) : Beat := BitVec.ofNat 32 (op * 2 ^ 24 + ch * 2 ^ 16 + code)

/-- The `OP` value of a command (30_encoding.md R63). -/
def opNumber : Instr → Nat
  | .nop => 0x00
  | .lmsInit _ => 0x01
  | .lmsLoad _ _ => 0x02
  | .lmsStore _ => 0x03
  | .lmsPredict _ => 0x04
  | .lmsUpdate _ _ _ => 0x05
  | .sfLookup _ => 0x08
  | .dequant _ _ => 0x09
  | .quantize _ _ => 0x0A
  | .sliceDecode _ _ => 0x10
  | .sliceEncode _ _ => 0x11

/-- The slot a command names (10_state.md R23). -/
def slotOf : Instr → Option Channel
  | .nop => none
  | .lmsInit c => some c
  | .lmsLoad c _ => some c
  | .lmsStore c => some c
  | .lmsPredict c => some c
  | .lmsUpdate c _ _ => some c
  | .sfLookup _ => none
  | .dequant _ _ => none
  | .quantize _ _ => none
  | .sliceDecode c _ => some c
  | .sliceEncode c _ => some c

/-- The column "writes `LMS(c)`" of 10_state.md R23. -/
def writesSlot : Instr → Bool
  | .nop => false
  | .lmsInit _ => true
  | .lmsLoad _ _ => true
  | .lmsStore _ => false
  | .lmsPredict _ => false
  | .lmsUpdate _ _ _ => true
  | .sfLookup _ => false
  | .dequant _ _ => false
  | .quantize _ _ => false
  | .sliceDecode _ _ => true
  | .sliceEncode _ _ => true

/-- The worked encodings of 30_encoding.md R72: a command and its beats. -/
def workedEncodings : List (Instr × List Beat) :=
  [(.nop, [0x00000000]),
   (.lmsInit 1, [0x01010000]),
   (.lmsLoad 0 ⟨⟨0, 0, 0, 0⟩, ⟨0, 0, -1, 2⟩⟩, [0x02000000, 0x00000000, 0x00000000, 0x00000000, 0xFFFF0002]),
   (.lmsStore 3, [0x03030000]),
   (.lmsPredict 0, [0x04000000]),
   (.lmsUpdate 0 (-17) (-300), [0x05000000, 0xFFFFFFEF, 0x0000FED4])] ++
  [(.sfLookup 15, [0x0800F000]),
   (.dequant 7 5, [0x09007500]),
   (.quantize 1 25, [0x0A001000, 0x00000019]),
   (.sliceDecode 0 0x1000000000000000, [0x10000000, 0x10000000, 0x00000000]),
   (.sliceEncode 2 [100, -100], [0x11020002, 0x00000064, 0x0000FF9C])]

/-! ## The predictor's rules as relations -/

/-- `p = floor(x / 2^k)` (00_scope.md R10). -/
def FloorShift (x : Int) (k : Nat) (p : Int) : Prop := p * 2 ^ k ≤ x ∧ x < (p + 1) * 2 ^ k

/-- `y` is `x` clamped to signed 16 bits (00_scope.md R10). -/
def Clamped (x y : Int) : Prop :=
  (x < -32768 → y = -32768) ∧ (32767 < x → y = 32767) ∧ (-32768 ≤ x → x ≤ 32767 → y = x)

/-- The 16-bit value `w` holds the integer `x` modulo 2^16 (00_scope.md R10, `wrap16`). -/
def Wrapped (x : Int) (w : S16) : Prop := (w.toInt - x) % 65536 = 0

/-- `p` is the prediction of a slot (41_lms.md R100). -/
def Predicts (v : LmsState) (p : Int) : Prop :=
  FloorShift (v.h.t0.toInt * v.w.t0.toInt + v.h.t1.toInt * v.w.t1.toInt + v.h.t2.toInt * v.w.t2.toInt
    + v.h.t3.toInt * v.w.t3.toInt) 13 p

/-- One weight moves by `delta`: up where its history entry is negative, down otherwise, modulo 2^16
(41_lms.md R101). -/
def WeightMoves (h w : S16) (delta : Int) (w' : S16) : Prop :=
  (h.toInt < 0 → Wrapped (w.toInt + delta) w') ∧ (0 ≤ h.toInt → Wrapped (w.toInt - delta) w')

/-- `v'` is slot `v` after one update (41_lms.md R101). -/
def Updates (v : LmsState) (residual : Int) (sample : S16) (v' : LmsState) : Prop :=
  (∃ q delta, FloorShift residual 4 q ∧ Clamped q delta ∧
    WeightMoves v.h.t0 v.w.t0 delta v'.w.t0 ∧ WeightMoves v.h.t1 v.w.t1 delta v'.w.t1 ∧
    WeightMoves v.h.t2 v.w.t2 delta v'.w.t2 ∧ WeightMoves v.h.t3 v.w.t3 delta v'.w.t3) ∧
  v'.h.t0 = v.h.t1 ∧ v'.h.t1 = v.h.t2 ∧ v'.h.t2 = v.h.t3 ∧ v'.h.t3 = sample

/-! ## The slice codec's rules as relations -/

/-- The 64 values of the dequantization table for even codes, one row of codes 0, 2, 4, 6 for each `sfq`
(40_tables_quant.md R81). -/
def deqTable : List (List Int) :=
  [[1, 3, 5, 7], [5, 18, 32, 49], [16, 53, 95, 147], [34, 113, 203, 315],
   [63, 210, 378, 588], [104, 345, 621, 966], [158, 528, 950, 1477], [228, 760, 1368, 2128]] ++
  [[316, 1053, 1895, 2947], [422, 1405, 2529, 3934], [548, 1828, 3290, 5117], [696, 2320, 4176, 6496],
   [868, 2893, 5207, 8099], [1064, 3548, 6386, 9933], [1286, 4288, 7718, 12005], [1536, 5120, 9216, 14336]]

/-- `DEQ[sfq][r]` as the table of 40_tables_quant.md R81 lists it: an odd code has the negative of the even code
before it. -/
def deqEntry (sfq : Sfq) (r : Code) : Int :=
  let a := (deqTable.getD sfq.toNat []).getD (r.toNat / 2) 0
  if r.toNat % 2 = 0 then a else -a

/-- `r` is the code nearest to `e`, the lowest of the nearest (40_tables_quant.md R83). -/
def Nearest (sfq : Sfq) (e : Int) (r : Code) : Prop :=
  ∀ r' : Code, (e - deqEntry sfq r).natAbs ≤ (e - deqEntry sfq r').natAbs ∧
    ((e - deqEntry sfq r').natAbs = (e - deqEntry sfq r).natAbs → r.toNat ≤ r'.toNat)

/-- Decoding code `r` in slot `v` gives sample `out` and slot `v'` (42_slice.md R121). -/
def DecodeStep (v : LmsState) (sfq : Sfq) (r : Code) (out : S16) (v' : LmsState) : Prop :=
  ∃ p, Predicts v p ∧ Clamped (p + deqEntry sfq r) out.toInt ∧ Updates v (deqEntry sfq r) out v'

/-- Decoding a sequence of codes, one step after another (42_slice.md R122). -/
inductive Decodes (sfq : Sfq) : LmsState → List Code → List S16 → LmsState → Prop where
  | nil (v : LmsState) : Decodes sfq v [] [] v
  | cons {v v1 v2 : LmsState} {r : Code} {rs : List Code} {x : S16} {xs : List S16} :
      DecodeStep v sfq r x v1 → Decodes sfq v1 rs xs v2 → Decodes sfq v (r :: rs) (x :: xs) v2

/-- Encoding sample `x` in slot `v` chooses code `r`, adds error `e` and leaves slot `v'` (42_slice.md R123). -/
def EncodeStep (v : LmsState) (sfq : Sfq) (x : S16) (r : Code) (e : Nat) (v' : LmsState) : Prop :=
  ∃ p out, Predicts v p ∧ Nearest sfq (x.toInt - p) r ∧ DecodeStep v sfq r out v' ∧
    e = (x.toInt - out.toInt).natAbs

/-- One candidate run to the end, with no pruning: its codes, its final slot and its total error
(42_slice.md R124). -/
inductive Encodes (sfq : Sfq) : LmsState → List S16 → List Code → LmsState → Nat → Prop where
  | nil (v : LmsState) : Encodes sfq v [] [] v 0
  | cons {v v1 v2 : LmsState} {x : S16} {xs : List S16} {r : Code} {rs : List Code} {e err : Nat} :
      EncodeStep v sfq x r e v1 → Encodes sfq v1 xs rs v2 err →
      Encodes sfq v (x :: xs) (r :: rs) v2 (e + err)

/-- A candidate wins: no candidate has a lower total error, and none with the same error has a lower `sfq`
(42_slice.md R126, R134). -/
def Wins (v : LmsState) (xs : List S16) (sfq : Sfq) (err : Nat) : Prop :=
  ∀ (sfq' : Sfq) (codes' : List Code) (v' : LmsState) (err' : Nat), Encodes sfq' v xs codes' v' err' →
    err ≤ err' ∧ (err' = err → sfq.toNat ≤ sfq'.toNat)

/-- The code bits of a slice word as a number, from position `j` on (42_slice.md R120). -/
def codesNumber (j : Nat) : List Code → Nat
  | [] => 0
  | r :: rs => r.toNat * 2 ^ (57 - 3 * j) + codesNumber (j + 1) rs

/-- A slice word as a number: `sfq` in `[63:60]`, code `j` in `[59-3j : 57-3j]` (42_slice.md R120). -/
def sliceNumber (sfq : Sfq) (codes : List Code) : Nat := sfq.toNat * 2 ^ 60 + codesNumber 0 codes

/-- The 20 codes a slice word holds, read as numbers (42_slice.md R120). -/
def codesOfNumber (slice : Nat) : List Code :=
  (List.range 20).map fun j => BitVec.ofNat 3 (slice / 2 ^ (57 - 3 * j))

/-! ## The encoder without pruning -/

/-- A candidate run over all its samples (42_slice.md R124 without R125). -/
def fullTrial : List S16 → Trial → Trial
  | [], t => t
  | x :: xs, t =>
    let r := chooseCode t.slot t.sfq x
    fullTrial xs ⟨t.sfq, t.codes ++ [r], stepSlot t.slot t.sfq r, t.err + stepError t.slot t.sfq x r⟩

/-- Keep the better of two finished candidates, the earlier on a tie (42_slice.md R126). -/
def betterTrial (a b : Trial) : Trial := if b.err < a.err then b else a

/-- The winner of the search when every candidate runs to the end (42_slice.md R129). -/
def unprunedWinner (v : LmsState) (xs : List S16) : Trial :=
  (candidates.map fun q => fullTrial xs (freshTrial v q)).foldl betterTrial (fullTrial xs (freshTrial v 0))

end Sys2Proof.Safety
end

