-- ==== Sys2Proof/Certificates/Slice0/Obligations.lean ====
section
/-! DEFINITION. The statements for the provers. Each docstring names the rule of `spec/` it formalises. -/

open Sys2Proof Sys2Proof.Machine Sys2Proof.Safety

/-! ## Encoding -/

/-- 30_encoding.md R61, R63, R64, R70: every well-formed command decodes from its own encoding, whatever beats
follow it. -/
def Obligations.DecodeInvertsEncode : Prop :=
  ∀ (i : Instr) (rest : List Beat), i.wellFormed = true → decode (encode i ++ rest) = .command i rest

/-- 30_encoding.md R72: the worked encodings, both ways. -/
def Obligations.WorkedEncodingsDecode : Prop :=
  ∀ p ∈ workedEncodings, encode p.1 = p.2 ∧ decode p.2 = .command p.1 []

/-- 30_encoding.md R61, R63: a decoded command is well-formed, its header is the one that was decoded, and its
own encoding decodes to it. -/
def Obligations.DecodedHeaderIsItsEncoding : Prop :=
  ∀ (hdr : Beat) (more rest : List Beat) (i : Instr), decode (hdr :: more) = .command i rest →
    i.wellFormed = true ∧ encodeHeader i = hdr ∧ decode (encode i ++ rest) = .command i rest

/-- 30_encoding.md R62, R65; 60_exceptions.md R161: with its payload there, every header is exactly one of a
command, a defined opcode with a reserved bit set, or a reserved opcode, and a reserved opcode has no payload. -/
def Obligations.EveryHeaderIsOneOfThree : Prop :=
  ∀ (hdr : Beat) (got rest : List Beat), got.length = payloadLen hdr →
    (definedOp (opOf hdr) = false →
      payloadLen hdr = 0 ∧ decode (hdr :: (got ++ rest)) = .rejected .reservedOpcode) ∧
    (definedOp (opOf hdr) = true → reservedBitSet hdr = true →
      decode (hdr :: (got ++ rest)) = .rejected .reservedBits) ∧
    (definedOp (opOf hdr) = true → reservedBitSet hdr = false →
      ∃ i, decode (hdr :: (got ++ rest)) = .command i rest ∧ opNumber i = opOf hdr)

/-- 30_encoding.md R66: the payload length is a function of the header, the decoder waits for that many beats, and
takes no more. -/
def Obligations.PayloadLengthFromHeader : Prop :=
  ∀ hdr : Beat, payloadLen hdr = payloadCount hdr ∧
    ∀ more : List Beat,
      (decode (hdr :: more) = .rejected .incomplete ↔ more.length < payloadCount hdr) ∧
      ∀ i rest, decode (hdr :: more) = .command i rest → rest = more.drop (payloadCount hdr)

/-- 30_encoding.md R61, R63, R64; 20_memory.md R43, R44, R45: which bits of the header and of the payload beats
each operand is. -/
def Obligations.OperandsAreTheirBits : Prop :=
  ∀ (hdr : Beat) (rest : List Beat), reservedBitSet hdr = false →
    (opOf hdr = 0x00 → decode (hdr :: rest) = .command .nop rest) ∧
    (opOf hdr = 0x01 → decode (hdr :: rest) = .command (.lmsInit (BitVec.ofNat 8 (chOf hdr))) rest) ∧
    (opOf hdr = 0x02 → ∀ b0 b1 b2 b3 : Beat, decode (hdr :: b0 :: b1 :: b2 :: b3 :: rest) =
      .command (.lmsLoad (BitVec.ofNat 8 (chOf hdr))
        ⟨⟨BitVec.ofNat 16 (b0.toNat / 2 ^ 16), BitVec.ofNat 16 b0.toNat,
          BitVec.ofNat 16 (b1.toNat / 2 ^ 16), BitVec.ofNat 16 b1.toNat⟩,
         ⟨BitVec.ofNat 16 (b2.toNat / 2 ^ 16), BitVec.ofNat 16 b2.toNat,
          BitVec.ofNat 16 (b3.toNat / 2 ^ 16), BitVec.ofNat 16 b3.toNat⟩⟩) rest) ∧
    (opOf hdr = 0x03 → decode (hdr :: rest) = .command (.lmsStore (BitVec.ofNat 8 (chOf hdr))) rest) ∧
    (opOf hdr = 0x04 → decode (hdr :: rest) = .command (.lmsPredict (BitVec.ofNat 8 (chOf hdr))) rest) ∧
    (opOf hdr = 0x05 → ∀ b0 b1 : Beat, decode (hdr :: b0 :: b1 :: rest) =
      .command (.lmsUpdate (BitVec.ofNat 8 (chOf hdr)) b0 (BitVec.ofNat 16 b1.toNat)) rest) ∧
    (opOf hdr = 0x08 → decode (hdr :: rest) = .command (.sfLookup (BitVec.ofNat 4 (hdr.toNat / 2 ^ 12))) rest) ∧
    (opOf hdr = 0x09 → decode (hdr :: rest) = .command (.dequant (BitVec.ofNat 4 (hdr.toNat / 2 ^ 12))
      (BitVec.ofNat 3 (hdr.toNat / 2 ^ 8))) rest) ∧
    (opOf hdr = 0x0A → ∀ b0 : Beat, decode (hdr :: b0 :: rest) =
      .command (.quantize (BitVec.ofNat 4 (hdr.toNat / 2 ^ 12)) b0) rest) ∧
    (opOf hdr = 0x10 → ∀ b0 b1 : Beat, decode (hdr :: b0 :: b1 :: rest) =
      .command (.sliceDecode (BitVec.ofNat 8 (chOf hdr)) (BitVec.ofNat 64 (b0.toNat * 2 ^ 32 + b1.toNat))) rest) ∧
    (opOf hdr = 0x11 → ∀ payload : List Beat, payload.length = hdr.toNat % 2 ^ 5 →
      decode (hdr :: (payload ++ rest)) = .command (.sliceEncode (BitVec.ofNat 8 (chOf hdr))
        (payload.map fun b => BitVec.ofNat 16 b.toNat)) rest)

/-! ## The step, the ports and reset -/

/-- 10_state.md R29; 20_memory.md R46, R47; 70_reset_and_hazards.md R188: a collected command executes, as one
step, in the state in which its beats are consumed. Around it the step only takes up the host's next levels and
counts the edge (logs 3 and 4); that it executes at the first edge at which it may is the model's choice (log 5). -/
def Obligations.StepRunsDecodedCommand : Prop :=
  ∀ (s : State) (hdr : Beat) (got rest : List Beat) (i : Instr),
    CommandReady s hdr got → decode (hdr :: got) = .command i rest →
    step s = exec i { s with parser := .idle, edges := s.edges.tail, edgeCount := s.edgeCount + 1 }

/-- 30_encoding.md R60, R67, R68; 60_exceptions.md R160, R161, R162, R164: every executed command has exactly one
response, a status beat that echoes `OP` and `CH` and holds the first code that applies, then the opcode's number
of result beats if the code is `OK` and none otherwise. That it executes at the first edge at which it may is the
model's choice (log 5). -/
def Obligations.EveryCommandGetsOneResponse : Prop :=
  ∀ (s : State) (hdr : Beat) (got : List Beat), CommandReady s hdr got →
    ∃ t results, step s = .next t ∧
      t.rspQueue = statusBeat (opOf hdr) (chOf hdr) (expectedStatus hdr s.nch) :: results ∧
      results.length = (if expectedStatus hdr s.nch = 0 then resultCount (opOf hdr) else 0) ∧
      t.parser = .idle ∧ t.cmdStream = s.cmdStream ∧ t.rspTaken = s.rspTaken ∧ t.nch = s.nch

/-- 60_exceptions.md R163: a command that ends with another status than `OK` consumes its payload, sends the
status beat alone, and leaves everything else as it was. That it ends at the first edge at which it may is the
model's choice (log 5). -/
def Obligations.ErrorSendsStatusAlone : Prop :=
  ∀ (s : State) (hdr : Beat) (got : List Beat), CommandReady s hdr got → expectedStatus hdr s.nch ≠ 0 →
    step s = .next { s with
      parser := .idle
      rspQueue := [statusBeat (opOf hdr) (chOf hdr) (expectedStatus hdr s.nch)]
      edges := s.edges.tail
      edgeCount := s.edgeCount + 1 }

/-- 30_encoding.md R65; 60_exceptions.md R165, R167: no step stops, whatever the state and the beats. -/
def Obligations.StepNeverStops : Prop := ∀ s : State, ∃ t, step s = .next t

/-- 00_scope.md R6; 10_state.md R29; 20_memory.md R46: every step keeps the invariant, from every state that
meets it. -/
def Obligations.StepKeepsInvariant : Prop :=
  ∀ s t : State, BlockInv s → step s = .next t → BlockInv t

/-- 00_scope.md R6: the reset state of every block of 1 to 255 slots meets the invariant, and so does
`State.reset`, whose number of slots is log 1's. -/
def Obligations.ResetMeetsInvariant : Prop :=
  (∀ n : Nat, 1 ≤ n → n ≤ 255 → BlockInv (State.resetWith n)) ∧ BlockInv State.reset

/-- 00_scope.md R6; 10_state.md R27: no step changes the number of slots. -/
def Obligations.StepKeepsSlotCount : Prop := ∀ s t : State, step s = .next t → t.nch = s.nch

/-- 10_state.md R24, R29, R31: the state after reset of a block of any number of slots. -/
def Obligations.ResetStateValues : Prop :=
  ∀ n : Nat, (State.resetWith n).nch = n ∧
    (∀ k : Nat, k < n → (State.resetWith n).bank[k]? = some ⟨⟨0, 0, 0, 0⟩, ⟨0, 0, -1, 2⟩⟩) ∧
    (State.resetWith n).parser = .idle ∧ (State.resetWith n).rspQueue = []

/-- 70_reset_and_hazards.md R180; 20_memory.md R41: an edge with `rst` high, in any state, also in the middle of a
command. No beat moves on either port; that the host's two lists therefore stay is the model's choice (log 2). -/
def Obligations.RstEdgeResetsTheBlock : Prop :=
  ∀ s : State, s.hostEdge.rst = true →
    s.cmdReady = false ∧ s.rspValid = false ∧
    ∃ t, step s = .next t ∧ t.nch = s.nch ∧
      (∀ k : Nat, k < s.nch → t.bank[k]? = some ⟨⟨0, 0, 0, 0⟩, ⟨0, 0, -1, 2⟩⟩) ∧
      t.parser = .idle ∧ t.rspQueue = [] ∧ t.cmdStream = s.cmdStream ∧ t.rspTaken = s.rspTaken ∧
      (t.hostEdge.rst = false → t.cmdReady = true)

/-- 20_memory.md R41, R46: outside reset a step drops, duplicates and reorders no response word: it only adds new
ones at the end, and none unless it executes a command. -/
def Obligations.ResponseStreamIsLossless : Prop :=
  ∀ s t : State, s.hostEdge.rst = false → step s = .next t →
    ∃ new, t.rspTaken ++ t.rspQueue = s.rspTaken ++ s.rspQueue ++ new ∧ (Waiting s → new = [])

/-- 20_memory.md R41: outside reset and between executions a step drops, duplicates and reorders no command beat. The
beat the host offers moves exactly when `cmd_valid` and `cmd_ready` are both high, and otherwise nothing moves on
the command port. -/
def Obligations.CommandStreamIsLossless : Prop :=
  ∀ s t : State, s.hostEdge.rst = false → Waiting s → step s = .next t →
    parserBeats t.parser ++ t.cmdStream = parserBeats s.parser ++ s.cmdStream ∧
    (∀ b bs, s.hostEdge.cmdValid = true → s.cmdReady = true → s.cmdStream = b :: bs →
      t.cmdStream = bs ∧ parserBeats t.parser = parserBeats s.parser ++ [b]) ∧
    ((s.hostEdge.cmdValid = false ∨ s.cmdReady = false ∨ s.cmdStream = []) →
      t.cmdStream = s.cmdStream ∧ t.parser = s.parser)

/-- 20_memory.md R41: the offered response beat holds until the host is ready, and then moves. -/
def Obligations.ResponseBeatHoldsUntilTaken : Prop :=
  ∀ (s t : State) (w : Beat) (ws : List Beat), s.hostEdge.rst = false → s.rspQueue = w :: ws →
    step s = .next t →
    (s.hostEdge.rspReady = false → t.rspQueue = w :: ws ∧ t.rspTaken = s.rspTaken) ∧
    (s.hostEdge.rspReady = true → t.rspQueue = ws ∧ t.rspTaken = s.rspTaken ++ [w])

/-- 10_state.md R29; 20_memory.md R47; 60_exceptions.md R175; 70_reset_and_hazards.md R186, R188: outside reset no
slot changes at an edge at which a response is pending or a beat of the command is still missing. -/
def Obligations.BankStillWhileWaiting : Prop :=
  ∀ s t : State, s.hostEdge.rst = false → Waiting s → step s = .next t → t.bank = s.bank

/-- 10_state.md R29; 30_encoding.md R66: with no response pending the block takes the offered beat, the header
first and then payload beats. That `cmd_ready` is high then is the model's choice (log 4), and so are the host's
levels and the edge (logs 3 and 5). -/
def Obligations.OfferedBeatIsCollected : Prop :=
  ∀ (s : State) (b : Beat) (bs : List Beat), s.hostEdge.rst = false → s.hostEdge.cmdValid = true →
    s.rspQueue = [] → s.cmdStream = b :: bs →
    (s.parser = .idle → step s = .next { s with
      parser := .collect b [], cmdStream := bs, edges := s.edges.tail, edgeCount := s.edgeCount + 1 }) ∧
    (∀ hdr got, s.parser = .collect hdr got → got.length < payloadLen hdr → step s = .next { s with
      parser := .collect hdr (got ++ [b]), cmdStream := bs, edges := s.edges.tail
      edgeCount := s.edgeCount + 1 })

/-- 70_reset_and_hazards.md R186: with no further beats and no reset, an incomplete command waits for ever: no
response, no slot changed, after any number of edges. -/
def Obligations.IncompleteCommandWaits : Prop :=
  ∀ (k : Nat) (s : State) (hdr : Beat) (got : List Beat),
    s.parser = .collect hdr got → got.length < payloadLen hdr → s.cmdStream = [] → s.rspQueue = [] →
    (∀ e ∈ s.edges, e.rst = false) →
    ∃ t, steps k s = .next t ∧ t.bank = s.bank ∧ t.parser = s.parser ∧
      t.rspQueue = [] ∧ t.rspTaken = s.rspTaken

/-- 10_state.md R29; 20_memory.md R46; 30_encoding.md R60: a command sent beat by beat to an idle block is
collected and executed. The number of edges, the host's levels and that `cmd_ready` is high with no response
pending are the model's choice (logs 3, 4 and 5). -/
def Obligations.StreamedCommandExecutes : Prop :=
  ∀ (s : State) (i : Instr) (rest : List Beat), i.wellFormed = true → s.edges = [] → s.parser = .idle →
    s.rspQueue = [] → s.cmdStream = encode i ++ rest →
    steps ((encode i).length + 1) s =
      exec i { s with cmdStream := rest, edgeCount := s.edgeCount + ((encode i).length + 1) }

/-- 20_memory.md R41, R46: a host that accepts every beat gets the whole response, in order. The number of edges
and the host's levels are the model's choice (logs 3 and 5). -/
def Obligations.ResponseDrains : Prop :=
  ∀ s : State, s.edges = [] →
    steps s.rspQueue.length s = .next { s with
      rspQueue := [], rspTaken := s.rspTaken ++ s.rspQueue, edgeCount := s.edgeCount + s.rspQueue.length }

/-- 70_reset_and_hazards.md R187; 30_encoding.md R65: the beat after a reserved opcode is read as a header. The
number of edges, the host's levels and that `cmd_ready` is high with no response pending are the model's choice
(logs 3, 4 and 5). -/
def Obligations.BeatAfterReservedOpcodeIsHeader : Prop :=
  ∀ (s : State) (hdr b : Beat) (bs : List Beat), definedOp (opOf hdr) = false → s.edges = [] →
    s.parser = .idle → s.rspQueue = [] → s.cmdStream = hdr :: b :: bs →
    steps 4 s = .next { s with
      parser := .collect b [], cmdStream := bs, edgeCount := s.edgeCount + 4
      rspTaken := s.rspTaken ++ [statusBeat (opOf hdr) (chOf hdr) 1] }

/-! ## Arithmetic -/

/-- 00_scope.md R10: the named functions. -/
def Obligations.NamedFunctions : Prop :=
  (∀ (x : Int) (k : Nat), FloorShift x k (asr x k)) ∧
  (∀ x : Int, Clamped x (clamp16 x)) ∧
  (∀ x : Int, (wrap16 x).toInt = (x + 32768) % 65536 - 32768) ∧
  (∀ x y : Int, (x ≤ y → (absDiff x y : Int) = y - x) ∧ (y ≤ x → (absDiff x y : Int) = x - y)) ∧
  (∀ (num : Int) (den : Nat), 0 < den →
    2 * (num - den * rhaz num den).natAbs ≤ den ∧
    (2 * (num - den * rhaz num den).natAbs = den → num.natAbs < (den * rhaz num den).natAbs))

/-! ## Tables and quantizer -/

/-- 40_tables_quant.md R80: every scale factor is the exact real power, rounded (no power is a tie, so any
rounding of halves gives the same table). -/
def Obligations.ScaleFactorIsRoundedPower : Prop :=
  ∀ sfq : Sfq, (scaleFactor sfq : Int) = round (((sfq.toNat : ℝ) + 1) ^ (2.75 : ℝ))

/-- 40_tables_quant.md R81: every entry is the table's and is the product of scale factor and shape rounded half
away from zero, odd codes are the negatives of even ones, and the even codes rise from above zero. -/
def Obligations.DequantTableIsRoundedProduct : Prop :=
  ∀ (sfq : Sfq) (r : Code),
    deq sfq r = deqEntry sfq r ∧
    2 * (scaleFactor sfq * shapeQuarters r - 4 * deq sfq r).natAbs ≤ 4 ∧
    (2 * (scaleFactor sfq * shapeQuarters r - 4 * deq sfq r).natAbs = 4 →
      (scaleFactor sfq * shapeQuarters r).natAbs < (4 * deq sfq r).natAbs) ∧
    (deq sfq r).natAbs ≤ 14336 ∧ 0 < deq sfq 0 ∧ deq sfq 0 < deq sfq 2 ∧ deq sfq 2 < deq sfq 4 ∧
    deq sfq 4 < deq sfq 6 ∧ (r.toNat % 2 = 0 → deq sfq (r + 1) = -deq sfq r)

/-- 40_tables_quant.md R83: the quantizer answers the nearest code, the lowest of the nearest, and its table
value, for every integer target. -/
def Obligations.QuantizerFindsNearestCode : Prop :=
  ∀ (sfq : Sfq) (e : Int), Nearest sfq e (quant sfq e).1 ∧ (quant sfq e).2 = deqEntry sfq (quant sfq e).1

/-- 40_tables_quant.md R84, which the spec derives from R81 and R83: the comparator form gives the same code for
every integer target. -/
def Obligations.QuantizerClosedForm : Prop :=
  ∀ (sfq : Sfq) (e : Int),
    let a := deqEntry sfq 0
    let b := deqEntry sfq 2
    let c := deqEntry sfq 4
    let d := deqEntry sfq 6
    (quant sfq e).1 =
      if 0 ≤ e then (if 2 * e ≤ a + b then 0 else if 2 * e ≤ b + c then 2 else if 2 * e ≤ c + d then 4 else 6)
      else (if -2 * e ≤ a + b then 1 else if -2 * e ≤ b + c then 3 else if -2 * e ≤ c + d then 5 else 7)

/-- 40_tables_quant.md R80, R85: SF_LOOKUP completes and sends the rounded power. -/
def Obligations.SfLookupSendsScaleFactor : Prop :=
  ∀ (s : State) (sfq : Sfq), exec (.sfLookup sfq) s = .next { s with rspQueue := s.rspQueue ++
    [statusBeat 0x08 0 0, BitVec.ofInt 32 (round (((sfq.toNat : ℝ) + 1) ^ (2.75 : ℝ)))] }

/-- 40_tables_quant.md R81, R86: DEQUANT completes and sends the table's entry, sign-extended. -/
def Obligations.DequantSendsTableEntry : Prop :=
  ∀ (s : State) (sfq : Sfq) (r : Code), exec (.dequant sfq r) s = .next { s with rspQueue := s.rspQueue ++
    [statusBeat 0x09 0 0, BitVec.ofInt 32 (deqEntry sfq r)] }

/-- 40_tables_quant.md R83, R87: QUANTIZE completes and sends the nearest code and its table value. -/
def Obligations.QuantizeSendsNearestCode : Prop :=
  ∀ (s : State) (sfq : Sfq) (e : BitVec 32), ∃ r : Code, Nearest sfq e.toInt r ∧
    exec (.quantize sfq e) s = .next { s with rspQueue := s.rspQueue ++
      [statusBeat 0x0A 0 0, BitVec.ofNat 32 r.toNat, BitVec.ofInt 32 (deqEntry sfq r)] }

/-! ## LMS predictor -/

/-- 41_lms.md R100: the prediction is the exact floor, in its range, and both extremes are reached. -/
def Obligations.PredictionIsExactFloor : Prop :=
  (∀ v : LmsState, Predicts v (predict v) ∧ -524272 ≤ predict v ∧ predict v ≤ 524288) ∧
  predict ⟨⟨-32768, -32768, -32768, -32768⟩, ⟨32767, 32767, 32767, 32767⟩⟩ = -524272 ∧
  predict ⟨⟨-32768, -32768, -32768, -32768⟩, ⟨-32768, -32768, -32768, -32768⟩⟩ = 524288

/-- 41_lms.md R101; 10_state.md R21; 90_conflicts.md C1: the update of a slot, for every residual and sample. -/
def Obligations.UpdateFollowsItsRule : Prop :=
  ∀ (v : LmsState) (residual : Int) (sample : S16), Updates v residual sample (update v residual sample)

/-- 41_lms.md R102: for a dequantized residual the clamp of `delta` never acts. -/
def Obligations.InternalResidualsNeverClamp : Prop :=
  ∀ (sfq : Sfq) (r : Code), (deq sfq r).natAbs ≤ 14336 ∧ (updateDelta (deq sfq r)).natAbs ≤ 896 ∧
    FloorShift (deq sfq r) 4 (updateDelta (deq sfq r))

/-- 41_lms.md R103; 10_state.md R24: LMS_INIT completes where the slot exists. -/
def Obligations.LmsInitSetsInitialState : Prop :=
  ∀ (s : State) (c : Channel), c.toNat < s.nch → exec (.lmsInit c) s = .next { s with
    bank := s.bank.set c.toNat ⟨⟨0, 0, 0, 0⟩, ⟨0, 0, -1, 2⟩⟩
    rspQueue := s.rspQueue ++ [statusBeat 0x01 c.toNat 0] }

/-- 41_lms.md R104; 10_state.md R22: LMS_LOAD completes where the slot exists, for every snapshot. -/
def Obligations.LmsLoadSetsSnapshot : Prop :=
  ∀ (s : State) (c : Channel) (snap : LmsState), c.toNat < s.nch → exec (.lmsLoad c snap) s = .next { s with
    bank := s.bank.set c.toNat snap
    rspQueue := s.rspQueue ++ [statusBeat 0x02 c.toNat 0] }

/-- 41_lms.md R105; 20_memory.md R44: LMS_STORE completes where the slot exists and sends the snapshot. -/
def Obligations.LmsStoreSendsSnapshot : Prop :=
  ∀ (s : State) (c : Channel) (v : LmsState), s.slot c = some v → exec (.lmsStore c) s = .next { s with
    rspQueue := s.rspQueue ++ [statusBeat 0x03 c.toNat 0,
      BitVec.ofNat 32 (v.h.t0.toNat * 2 ^ 16 + v.h.t1.toNat), BitVec.ofNat 32 (v.h.t2.toNat * 2 ^ 16 + v.h.t3.toNat),
      BitVec.ofNat 32 (v.w.t0.toNat * 2 ^ 16 + v.w.t1.toNat),
      BitVec.ofNat 32 (v.w.t2.toNat * 2 ^ 16 + v.w.t3.toNat)] }

/-- 41_lms.md R100, R106: LMS_PREDICT completes where the slot exists and sends the prediction, sign-extended and
never clamped. -/
def Obligations.LmsPredictSendsPrediction : Prop :=
  ∀ (s : State) (c : Channel) (v : LmsState), s.slot c = some v → ∃ p, Predicts v p ∧
    exec (.lmsPredict c) s = .next { s with
      rspQueue := s.rspQueue ++ [statusBeat 0x04 c.toNat 0, BitVec.ofInt 32 p] }

/-- 41_lms.md R101, R107: LMS_UPDATE completes where the slot exists, for every residual and sample. -/
def Obligations.LmsUpdateAppliesUpdate : Prop :=
  ∀ (s : State) (c : Channel) (v : LmsState) (residual : BitVec 32) (sample : S16), s.slot c = some v →
    ∃ v', Updates v residual.toInt sample v' ∧ exec (.lmsUpdate c residual sample) s = .next { s with
      bank := s.bank.set c.toNat v'
      rspQueue := s.rspQueue ++ [statusBeat 0x05 c.toNat 0] }

/-! ## Slice codec -/

/-- 42_slice.md R120: the slice word's layout, packing and unpacking. -/
def Obligations.SliceWordLayout : Prop :=
  (∀ slice : BitVec 64, (unpackSfq slice).toNat = slice.toNat / 2 ^ 60 ∧
    ∀ j : Nat, j < 20 → (unpackCode slice j).toNat = slice.toNat / 2 ^ (57 - 3 * j) % 2 ^ 3) ∧
  (∀ (sfq : Sfq) (codes : List Code), codes.length ≤ 20 →
    (pack sfq codes).toNat = sliceNumber sfq codes ∧ unpackSfq (pack sfq codes) = sfq ∧
    ∀ j : Nat, j < 20 → unpackCode (pack sfq codes) j = codes.getD j 0)

/-- 42_slice.md R120: the fields fill the word, so packing what was unpacked gives the word back. -/
def Obligations.SliceFieldsFillTheWord : Prop :=
  ∀ slice : BitVec 64, pack (unpackSfq slice) (unpackCodes slice) = slice

/-- 42_slice.md R121, R122: SLICE_DECODE completes where the slot exists, for every slice word: 20 decode steps, 20
sign-extended samples, the slot after the last step. -/
def Obligations.SliceDecodeRunsTwentySteps : Prop :=
  ∀ (s : State) (c : Channel) (slice : BitVec 64) (v : LmsState), s.slot c = some v →
    ∃ (out : List S16) (v' : LmsState),
      Decodes (BitVec.ofNat 4 (slice.toNat / 2 ^ 60)) v (codesOfNumber slice.toNat) out v' ∧ out.length = 20 ∧
      exec (.sliceDecode c slice) s = .next { s with
        bank := s.bank.set c.toNat v'
        rspQueue := s.rspQueue ++ statusBeat 0x10 c.toNat 0 :: out.map (fun x => BitVec.ofInt 32 x.toInt) }

/-- 42_slice.md R123, R124, R126, R127, R128: SLICE_ENCODE of at most 20 samples completes where the slot exists: it
commits and packs a candidate that wins over all 16, and sends its error. -/
def Obligations.SliceEncodeCommitsTheWinner : Prop :=
  ∀ (s : State) (c : Channel) (xs : List S16) (v : LmsState), s.slot c = some v → xs.length ≤ 20 →
    ∃ (sfq : Sfq) (codes : List Code) (v' : LmsState) (err : Nat),
      Encodes sfq v xs codes v' err ∧ Wins v xs sfq err ∧
      exec (.sliceEncode c xs) s = .next { s with
        bank := s.bank.set c.toNat v'
        rspQueue := s.rspQueue ++ [statusBeat 0x11 c.toNat 0, BitVec.ofNat 32 (sliceNumber sfq codes / 2 ^ 32),
          BitVec.ofNat 32 (sliceNumber sfq codes), BitVec.ofNat 32 err] }

/-- 42_slice.md R129, which the spec derives from R124 to R126: the search with pruning and the search without it
have the same winner, codes, final state and error. -/
def Obligations.PruningKeepsTheWinner : Prop :=
  ∀ (v : LmsState) (xs : List S16), selectWinner v xs = unprunedWinner v xs

/-- 42_slice.md R128: an empty slice is the word 0 with error 0, and leaves the slot as it was. -/
def Obligations.EmptySliceIsZero : Prop :=
  ∀ (s : State) (c : Channel), c.toNat < s.nch → exec (.sliceEncode c []) s = .next { s with
    rspQueue := s.rspQueue ++ [statusBeat 0x11 c.toNat 0, 0, 0, 0] }

/-- 42_slice.md R130, which the spec derives from R100 and R81: the value ranges of the datapath, and of the total
error of at most 20 samples. -/
def Obligations.DatapathRanges : Prop :=
  (∀ (v : LmsState) (sfq : Sfq) (r : Code) (x : S16),
    -524272 ≤ predict v ∧ predict v ≤ 524288 ∧
    -557056 ≤ x.toInt - predict v ∧ x.toInt - predict v ≤ 557039 ∧
    -538608 ≤ predict v + deq sfq r ∧ predict v + deq sfq r ≤ 538624 ∧
    stepError v sfq x r ≤ 65535) ∧
  (∀ (v : LmsState) (sfq : Sfq) (xs : List S16), xs.length ≤ 20 →
    (fullTrial xs (freshTrial v sfq)).err ≤ 1310700)

/-- 42_slice.md R133, which the spec derives from R121, R123 and R127: a SLICE_ENCODE of 20 samples and a
SLICE_DECODE of the slice it returns, on slots in the same state, leave the same slot; the decoded samples are at
the returned distance from the input. -/
def Obligations.DecodeRetracesEncode : Prop :=
  ∀ (s u : State) (c d : Channel) (v : LmsState) (xs : List S16), s.slot c = some v → u.slot d = some v →
    xs.length = 20 →
    ∃ (slice : BitVec 64) (err : Nat) (v' : LmsState) (out : List S16),
      exec (.sliceEncode c xs) s = .next { s with
        bank := s.bank.set c.toNat v'
        rspQueue := s.rspQueue ++ [statusBeat 0x11 c.toNat 0, BitVec.ofNat 32 (slice.toNat / 2 ^ 32),
          BitVec.ofNat 32 slice.toNat, BitVec.ofNat 32 err] } ∧
      exec (.sliceDecode d slice) u = .next { u with
        bank := u.bank.set d.toNat v'
        rspQueue := u.rspQueue ++ statusBeat 0x10 d.toNat 0 :: out.map (fun x => BitVec.ofInt 32 x.toInt) } ∧
      out.length = 20 ∧ err = (List.zipWith (fun x y : S16 => (x.toInt - y.toInt).natAbs) xs out).sum ∧ err < 2 ^ 32

/-- 42_slice.md R132: for a short slice the encoder advances the slot by `n` updates, the decoder of the same word
by 20, and the first `n` decoded samples are the encoder's. -/
def Obligations.ShortSliceSharesItsPrefix : Prop :=
  ∀ (v : LmsState) (xs : List S16), xs.length ≤ 20 →
    ∃ out out' v',
      Decodes (selectWinner v xs).sfq v (selectWinner v xs).codes out (selectWinner v xs).slot ∧
      out.length = xs.length ∧
      Decodes (selectWinner v xs).sfq (selectWinner v xs).slot (List.replicate (20 - xs.length) 0) out' v' ∧
      Decodes (unpackSfq (pack (selectWinner v xs).sfq (selectWinner v xs).codes)) v
        (unpackCodes (pack (selectWinner v xs).sfq (selectWinner v xs).codes)) (out ++ out') v'

/-! ## Control and errors -/

/-- 43_control.md R150: NOP completes, and any other header with its opcode is `ERR_RSVD`. -/
def Obligations.NopReportsCompletion : Prop :=
  (∀ s : State, exec .nop s = .next { s with rspQueue := s.rspQueue ++ [0x00000000] }) ∧
  (∀ (hdr : Beat) (more : List Beat), opOf hdr = 0x00 →
    decode (hdr :: more) = if hdr = 0 then .command .nop more else .rejected .reservedBits)

/-- 60_exceptions.md R161; 20_memory.md R40: a command that names a slot the block does not have ends with
`ERR_CHANNEL`. -/
def Obligations.MissingSlotIsErrChannel : Prop :=
  ∀ (s : State) (i : Instr) (c : Channel), slotOf i = some c → s.nch ≤ c.toNat →
    exec i s = .next { s with rspQueue := s.rspQueue ++ [statusBeat (opNumber i) c.toNat 3] }

/-- 60_exceptions.md R162: more than 20 samples end with `ERR_COUNT`, and no slot is written. -/
def Obligations.TooManySamplesIsErrCount : Prop :=
  ∀ (s : State) (c : Channel) (xs : List S16), c.toNat < s.nch → 20 < xs.length →
    exec (.sliceEncode c xs) s = .next { s with rspQueue := s.rspQueue ++ [statusBeat 0x11 c.toNat 4] }

/-! ## Frames and independence -/

/-- 10_state.md R20, R23; 20_memory.md R49: what every command leaves unchanged: every slot but the one it names,
that one too if it is not a command that writes, the parser, the host's side of the ports and the number of slots;
the response queue is only added to. -/
def Obligations.CommandsChangeOnlyTheirSlot : Prop :=
  ∀ (i : Instr) (s t : State), exec i s = .next t →
    (∀ k : Nat, (∀ c, slotOf i = some c → c.toNat ≠ k) → t.bank[k]? = s.bank[k]?) ∧
    (writesSlot i = false → t.bank = s.bank) ∧ t.nch = s.nch ∧
    t.parser = s.parser ∧ t.cmdStream = s.cmdStream ∧ t.edges = s.edges ∧ t.rspTaken = s.rspTaken ∧
    t.edgeCount = s.edgeCount ∧ ∃ new, t.rspQueue = s.rspQueue ++ new

/-- 10_state.md R20; 60_exceptions.md R176: a command's response and the new content of its slot depend on nothing
but the command, the content of that slot and the number of slots. -/
def Obligations.SlotsAreIndependent : Prop :=
  ∀ (i : Instr) (s t s' t' : State), s.nch = t.nch → (∀ c, slotOf i = some c → s.slot c = t.slot c) →
    exec i s = .next s' → exec i t = .next t' →
    (∃ new, s'.rspQueue = s.rspQueue ++ new ∧ t'.rspQueue = t.rspQueue ++ new) ∧
    ∀ c, slotOf i = some c → s'.slot c = t'.slot c

/-- 20_memory.md R49: the commands that write no slot can be repeated with identical results. -/
def Obligations.ReadingCommandsRepeat : Prop :=
  ∀ (i : Instr) (s t : State), writesSlot i = false → exec i s = .next t →
    ∃ new, t = { s with rspQueue := s.rspQueue ++ new } ∧
      exec i t = .next { t with rspQueue := t.rspQueue ++ new }

/-- 20_memory.md R49: LMS_INIT and LMS_LOAD done twice leave the bank as done once. -/
def Obligations.InitAndLoadAreIdempotent : Prop :=
  ∀ (s t u : State) (c : Channel) (snap : LmsState),
    (exec (.lmsInit c) s = .next t → exec (.lmsInit c) t = .next u → u.bank = t.bank) ∧
    (exec (.lmsLoad c snap) s = .next t → exec (.lmsLoad c snap) t = .next u → u.bank = t.bank)

/-- 20_memory.md R52; 41_lms.md R105: the four result beats of LMS_STORE, sent back as the payload of LMS_LOAD, give
the slot its content again, whatever it held in between. -/
def Obligations.StoreThenLoadRestores : Prop :=
  ∀ (s u : State) (c : Channel) (v : LmsState), s.slot c = some v → c.toNat < u.nch →
    ∃ b0 b1 b2 b3 : Beat,
      exec (.lmsStore c) s = .next { s with
        rspQueue := s.rspQueue ++ [statusBeat 0x03 c.toNat 0, b0, b1, b2, b3] } ∧
      ∃ w, decode [BitVec.ofNat 32 (0x02 * 2 ^ 24 + c.toNat * 2 ^ 16), b0, b1, b2, b3] =
          .command (.lmsLoad c v) [] ∧
        exec (.lmsLoad c v) u = .next w ∧ w.slot c = some v
end

