-- ==== Sys2Proof/Laws/Arith.lean ====
section
/-! SUPPORT. The named functions on integers against the relations of Safety, and the predictor's small lemmas. -/

namespace Sys2Proof.Machine

open Sys2Proof.Safety

theorem floorShift_asr (x : Int) (k : Nat) : FloorShift x k (asr x k) := by
  have hp : (0 : Int) < 2 ^ k := by positivity
  have e : ((2 ^ k : Nat) : Int) = 2 ^ k := by simp
  simp only [FloorShift, asr, e]
  refine ⟨Int.ediv_mul_le x hp.ne', ?_⟩
  rw [Int.add_mul, Int.one_mul]
  exact Int.lt_ediv_add_one_mul_self x hp |>.trans_eq (by ring)

theorem FloorShift.unique {x : Int} {k : Nat} {p q : Int} (hp : FloorShift x k p) (hq : FloorShift x k q) :
    p = q := by
  have h2 : (0 : Int) < 2 ^ k := by positivity
  obtain ⟨a, b⟩ := hp
  obtain ⟨c, d⟩ := hq
  have h1 : p < q + 1 := lt_of_mul_lt_mul_right (a.trans_lt d) h2.le
  have h3 : q < p + 1 := lt_of_mul_lt_mul_right (c.trans_lt b) h2.le
  omega

theorem clamped_clamp16 (x : Int) : Clamped x (clamp16 x) := by
  simp only [Clamped, clamp16]
  omega

theorem Clamped.unique {x y z : Int} (h : Clamped x y) (h' : Clamped x z) : y = z := by
  simp only [Clamped] at h h'
  omega

theorem clamp16_range (x : Int) : -32768 ≤ clamp16 x ∧ clamp16 x ≤ 32767 := by
  simp only [clamp16]
  omega

theorem toInt_range (x : S16) : -32768 ≤ x.toInt ∧ x.toInt ≤ 32767 := by
  have h1 := BitVec.le_toInt x
  have h2 := @BitVec.toInt_lt 16 x
  omega

theorem wrap16_toInt (x : Int) : (wrap16 x).toInt = (x + 32768) % 65536 - 32768 := by
  rw [wrap16, BitVec.toInt_ofInt, Int.bmod_def]
  omega

theorem wrapped_wrap16 (x : Int) : Wrapped x (wrap16 x) := by
  rw [Wrapped, wrap16_toInt]
  omega

theorem Wrapped.unique {x : Int} {w w' : S16} (h : Wrapped x w) (h' : Wrapped x w') : w = w' := by
  apply BitVec.eq_of_toInt_eq
  have := toInt_range w
  have := toInt_range w'
  simp only [Wrapped] at h h'
  omega

/-- A clamped value survives its 16-bit form. -/
theorem wrap16_clamp16 (x : Int) : (wrap16 (clamp16 x)).toInt = clamp16 x := by
  have := clamp16_range x
  rw [wrap16_toInt]
  omega

theorem predicts_predict (v : LmsState) : Predicts v (predict v) := floorShift_asr _ 13

theorem Predicts.eq {v : LmsState} {p : Int} (h : Predicts v p) : p = predict v :=
  FloorShift.unique h (predicts_predict v)

theorem weightMoves_updateWeight (h w : S16) (delta : Int) :
    WeightMoves h w delta (updateWeight h w delta) := by
  unfold WeightMoves updateWeight
  split
  · exact ⟨fun _ => wrapped_wrap16 _, fun _ => by omega⟩
  · exact ⟨fun _ => by omega, fun _ => wrapped_wrap16 _⟩

theorem WeightMoves.unique {h w : S16} {delta : Int} {a b : S16} (ha : WeightMoves h w delta a)
    (hb : WeightMoves h w delta b) : a = b := by
  rcases lt_or_ge h.toInt 0 with hn | hn
  · exact Wrapped.unique (ha.1 hn) (hb.1 hn)
  · exact Wrapped.unique (ha.2 hn) (hb.2 hn)

/-- An update is determined by its slot, residual and sample. -/
theorem Updates.unique {v a b : LmsState} {residual : Int} {x : S16} (ha : Updates v residual x a)
    (hb : Updates v residual x b) : a = b := by
  obtain ⟨⟨q, d, f, c, a0, a1, a2, a3⟩, g0, g1, g2, g3⟩ := ha
  obtain ⟨⟨q', d', f', c', b0, b1, b2, b3⟩, k0, k1, k2, k3⟩ := hb
  obtain rfl := FloorShift.unique (x := residual) (k := 4) f f'
  obtain rfl := Clamped.unique c c'
  obtain ⟨⟨_, _, _, _⟩, ⟨_, _, _, _⟩⟩ := a
  obtain ⟨⟨_, _, _, _⟩, ⟨_, _, _, _⟩⟩ := b
  simp only at a0 a1 a2 a3 b0 b1 b2 b3 g0 g1 g2 g3 k0 k1 k2 k3
  obtain rfl := WeightMoves.unique a0 b0
  obtain rfl := WeightMoves.unique a1 b1
  obtain rfl := WeightMoves.unique a2 b2
  obtain rfl := WeightMoves.unique a3 b3
  simp [*]

/-- The product of two 16-bit values is between `-32768 * 32767` and `2 ^ 30`. -/
theorem mul_range (a b : S16) : -1073709056 ≤ a.toInt * b.toInt ∧ a.toInt * b.toInt ≤ 1073741824 := by
  have ha := toInt_range a
  have hb := toInt_range b
  constructor
  · nlinarith
  · nlinarith

theorem dot_range (v : LmsState) : -4294836224 ≤ dot v ∧ dot v ≤ 4294967296 := by
  have h0 := mul_range v.h.t0 v.w.t0
  have h1 := mul_range v.h.t1 v.w.t1
  have h2 := mul_range v.h.t2 v.w.t2
  have h3 := mul_range v.h.t3 v.w.t3
  simp only [dot]
  omega

end Sys2Proof.Machine
end

