-- ==== Sys2Proof/Laws/Decode.lean ====
section
/-! SUPPORT. Header fields as numbers, the opcode map's masks as conditions on fields, and the encoder's header. -/

namespace Sys2Proof

open Sys2Proof.Safety

/-- A concatenation as a number. -/
theorem toNat_append {n m : Nat} (x : BitVec n) (y : BitVec m) :
    (x ++ y).toNat = x.toNat * 2 ^ m + y.toNat := by
  rw [BitVec.toNat_append, ← Nat.shiftLeft_add_eq_or_of_lt y.isLt, Nat.shiftLeft_eq]

theorem hdrOp_toNat (hdr : Beat) : (hdrOp hdr).toNat = opOf hdr := by
  have := hdr.isLt
  simp only [hdrOp, opOf, BitVec.extractLsb'_toNat, Nat.shiftRight_eq_div_pow]
  omega

theorem hdrCh_toNat (hdr : Beat) : (hdrCh hdr).toNat = chOf hdr := by
  simp only [hdrCh, chOf, BitVec.extractLsb'_toNat, Nat.shiftRight_eq_div_pow]

theorem hdrSfq_toNat (hdr : Beat) : (hdrSfq hdr).toNat = hdr.toNat / 2 ^ 12 % 2 ^ 4 := by
  simp only [hdrSfq, BitVec.extractLsb'_toNat, Nat.shiftRight_eq_div_pow]

theorem hdrCode_toNat (hdr : Beat) : (hdrCode hdr).toNat = hdr.toNat / 2 ^ 8 % 2 ^ 3 := by
  simp only [hdrCode, BitVec.extractLsb'_toNat, Nat.shiftRight_eq_div_pow]

theorem hdrCnt_toNat (hdr : Beat) : (hdrCnt hdr).toNat = hdr.toNat % 2 ^ 5 := by
  simp [hdrCnt, BitVec.extractLsb'_toNat]

/-- A header as a number, from its fields. -/
theorem makeHeader_toNat (op : BitVec 8) (c : Channel) (sfq : Sfq) (r : Code) (n : BitVec 5) :
    (makeHeader op c sfq r n).toNat
      = op.toNat * 2 ^ 24 + c.toNat * 2 ^ 16 + sfq.toNat * 2 ^ 12 + r.toNat * 2 ^ 8 + n.toNat := by
  have h : (makeHeader op c sfq r n).toNat = ((((((op ++ c) ++ sfq) ++ 0#1) ++ r) ++ 0#3) ++ n).toNat := rfl
  rw [h]
  simp only [toNat_append, BitVec.toNat_ofNat]
  omega

theorem hdrOp_makeHeader (op : BitVec 8) (c : Channel) (sfq : Sfq) (r : Code) (n : BitVec 5) :
    hdrOp (makeHeader op c sfq r n) = op := by
  apply BitVec.eq_of_toNat_eq
  rw [hdrOp_toNat, opOf, makeHeader_toNat]
  omega

theorem hdrCh_makeHeader (op : BitVec 8) (c : Channel) (sfq : Sfq) (r : Code) (n : BitVec 5) :
    hdrCh (makeHeader op c sfq r n) = c := by
  apply BitVec.eq_of_toNat_eq
  rw [hdrCh_toNat, chOf, makeHeader_toNat]
  omega

theorem hdrSfq_makeHeader (op : BitVec 8) (c : Channel) (sfq : Sfq) (r : Code) (n : BitVec 5) :
    hdrSfq (makeHeader op c sfq r n) = sfq := by
  apply BitVec.eq_of_toNat_eq
  rw [hdrSfq_toNat, makeHeader_toNat]
  omega

theorem hdrCode_makeHeader (op : BitVec 8) (c : Channel) (sfq : Sfq) (r : Code) (n : BitVec 5) :
    hdrCode (makeHeader op c sfq r n) = r := by
  apply BitVec.eq_of_toNat_eq
  rw [hdrCode_toNat, makeHeader_toNat]
  omega

theorem hdrCnt_makeHeader (op : BitVec 8) (c : Channel) (sfq : Sfq) (r : Code) (n : BitVec 5) :
    hdrCnt (makeHeader op c sfq r n) = n := by
  apply BitVec.eq_of_toNat_eq
  rw [hdrCnt_toNat, makeHeader_toNat]
  omega

/-! ### The masks of the opcode map, for any opcode byte -/

theorem mask_ch (x : Beat) (k : BitVec 8) :
    x &&& 0xFF00FFFF#32 = k.setWidth 32 <<< 24 ↔ hdrOp x = k ∧ x.extractLsb' 0 16 = 0#16 := by
  simp only [hdrOp]
  constructor
  · intro h
    have a := fun j => congrArg (fun v : Beat => v.getLsbD j) h
    constructor
    · ext i hi
      have := a (24 + i)
      interval_cases i <;> simpa using this
    · ext i hi
      have := a i
      interval_cases i <;> simpa using this
  · rintro ⟨rfl, h⟩
    have b := fun j => congrArg (fun v : BitVec 16 => v.getLsbD j) h
    ext i hi
    have := b i
    interval_cases i <;> first | (simp; done) | simpa using this

theorem mask_sfq (x : Beat) (k : BitVec 8) :
    x &&& 0xFFFF0FFF#32 = k.setWidth 32 <<< 24 ↔
      hdrOp x = k ∧ hdrCh x = 0#8 ∧ x.extractLsb' 0 12 = 0#12 := by
  simp only [hdrOp, hdrCh]
  constructor
  · intro h
    have a := fun j => congrArg (fun v : Beat => v.getLsbD j) h
    refine ⟨?_, ?_, ?_⟩
    · ext i hi
      have := a (24 + i)
      interval_cases i <;> simpa using this
    · ext i hi
      have := a (16 + i)
      interval_cases i <;> simpa using this
    · ext i hi
      have := a i
      interval_cases i <;> simpa using this
  · rintro ⟨rfl, h1, h2⟩
    have b := fun j => congrArg (fun v : BitVec 8 => v.getLsbD j) h1
    have c := fun j => congrArg (fun v : BitVec 12 => v.getLsbD j) h2
    ext i hi
    have b' := b (i - 16)
    have c' := c i
    interval_cases i <;> first | (simp; done) | simpa using b' | simpa using c'

theorem mask_sfq_code (x : Beat) (k : BitVec 8) :
    x &&& 0xFFFF08FF#32 = k.setWidth 32 <<< 24 ↔
      hdrOp x = k ∧ hdrCh x = 0#8 ∧ x.extractLsb' 11 1 = 0#1 ∧ x.extractLsb' 0 8 = 0#8 := by
  simp only [hdrOp, hdrCh]
  constructor
  · intro h
    have a := fun j => congrArg (fun v : Beat => v.getLsbD j) h
    refine ⟨?_, ?_, ?_, ?_⟩
    · ext i hi
      have := a (24 + i)
      interval_cases i <;> simpa using this
    · ext i hi
      have := a (16 + i)
      interval_cases i <;> simpa using this
    · ext i hi
      have := a (11 + i)
      interval_cases i
      simpa using this
    · ext i hi
      have := a i
      interval_cases i <;> simpa using this
  · rintro ⟨rfl, h1, h2, h3⟩
    have b := fun j => congrArg (fun v : BitVec 8 => v.getLsbD j) h1
    have c := congrArg (fun v : BitVec 1 => v.getLsbD 0) h2
    have d := fun j => congrArg (fun v : BitVec 8 => v.getLsbD j) h3
    ext i hi
    have b' := b (i - 16)
    have d' := d i
    interval_cases i <;> first | (simp; done) | simpa using b' | simpa using c | simpa using d'

theorem mask_ch_cnt (x : Beat) (k : BitVec 8) :
    x &&& 0xFF00FFE0#32 = k.setWidth 32 <<< 24 ↔ hdrOp x = k ∧ x.extractLsb' 5 11 = 0#11 := by
  simp only [hdrOp]
  constructor
  · intro h
    have a := fun j => congrArg (fun v : Beat => v.getLsbD j) h
    constructor
    · ext i hi
      have := a (24 + i)
      interval_cases i <;> simpa using this
    · ext i hi
      have := a (5 + i)
      interval_cases i <;> simpa using this
  · rintro ⟨rfl, h⟩
    have b := fun j => congrArg (fun v : BitVec 11 => v.getLsbD j) h
    ext i hi
    have := b (i - 5)
    interval_cases i <;> first | (simp; done) | simpa using this

theorem mask_all (x : Beat) : x &&& 0xFFFFFFFF#32 = x :=
  BitVec.and_allOnes

theorem extract_eq_zero_iff (x : Beat) (a b : Nat) :
    x.extractLsb' a b = 0#b ↔ x.toNat / 2 ^ a % 2 ^ b = 0 := by
  rw [← BitVec.toNat_inj]
  simp [BitVec.extractLsb'_toNat, Nat.shiftRight_eq_div_pow]

/-- The opcode an `OP` value stands for is the one whose byte it is. -/
theorem opcodeOfByte_byte (op : Opcode) : opcodeOfByte op.byte = some op := by
  cases op <;> rfl

theorem byte_of_opcodeOfByte {b : BitVec 8} {op : Opcode} (h : opcodeOfByte b = some op) : op.byte = b := by
  revert op
  revert b
  decide

theorem opcodeOfByte_eq_none_iff (b : BitVec 8) : opcodeOfByte b = none ↔ definedOp b.toNat = false := by
  revert b
  decide

/-- The mask check of a header whose `OP` is the opcode's holds exactly when no reserved-zero bit is set. -/
theorem mask_iff (op : Opcode) (hdr : Beat) (h : hdrOp hdr = op.byte) :
    hdr &&& op.mask = op.matchWord ↔ reservedBitSet hdr = false := by
  have hop : opOf hdr = op.byte.toNat := by rw [← hdrOp_toNat, h]
  have key : ∀ b : BitVec 8, b.setWidth 32 <<< 24 = BitVec.ofNat 32 (b.toNat * 2 ^ 24) := by decide
  have hch : hdrCh hdr = 0#8 ↔ chOf hdr = 0 := by
    rw [← BitVec.toNat_inj, hdrCh_toNat]
    rfl
  cases op
  case nop =>
    have h0 : opOf hdr = 0 := hop
    have h1 : hdr.toNat / 2 ^ 24 = 0 := hop
    simp only [Opcode.mask, Opcode.matchWord, reservedBitSet, h0]
    rw [show hdr &&& 0xFFFFFFFF = hdr from mask_all hdr, ← BitVec.toNat_inj]
    change hdr.toNat = 0 ↔ _
    simp only [bne_eq_false_iff_eq]
    omega
  case sfLookup =>
    have e := mask_sfq hdr 0x08
    rw [key] at e
    simp only [Opcode.mask, Opcode.matchWord, reservedBitSet, hop, Opcode.byte] at h e ⊢
    refine e.trans ?_
    simp [h, hch, extract_eq_zero_iff]
  case dequant =>
    have e := mask_sfq_code hdr 0x09
    rw [key] at e
    simp only [Opcode.mask, Opcode.matchWord, reservedBitSet, hop, Opcode.byte] at h e ⊢
    refine e.trans ?_
    simp [h, hch, extract_eq_zero_iff, and_assoc]
  case quantize =>
    have e := mask_sfq hdr 0x0A
    rw [key] at e
    simp only [Opcode.mask, Opcode.matchWord, reservedBitSet, hop, Opcode.byte] at h e ⊢
    refine e.trans ?_
    simp [h, hch, extract_eq_zero_iff]
  case sliceEncode =>
    have e := mask_ch_cnt hdr 0x11
    rw [key] at e
    simp only [Opcode.mask, Opcode.matchWord, reservedBitSet, hop, Opcode.byte] at h e ⊢
    refine e.trans ?_
    simp [h, extract_eq_zero_iff]
  case lmsInit =>
    have e := mask_ch hdr 0x01
    rw [key] at e
    simp only [Opcode.mask, Opcode.matchWord, reservedBitSet, hop, Opcode.byte] at h e ⊢
    refine e.trans ?_
    simp [h, extract_eq_zero_iff]
  case lmsLoad =>
    have e := mask_ch hdr 0x02
    rw [key] at e
    simp only [Opcode.mask, Opcode.matchWord, reservedBitSet, hop, Opcode.byte] at h e ⊢
    refine e.trans ?_
    simp [h, extract_eq_zero_iff]
  case lmsStore =>
    have e := mask_ch hdr 0x03
    rw [key] at e
    simp only [Opcode.mask, Opcode.matchWord, reservedBitSet, hop, Opcode.byte] at h e ⊢
    refine e.trans ?_
    simp [h, extract_eq_zero_iff]
  case lmsPredict =>
    have e := mask_ch hdr 0x04
    rw [key] at e
    simp only [Opcode.mask, Opcode.matchWord, reservedBitSet, hop, Opcode.byte] at h e ⊢
    refine e.trans ?_
    simp [h, extract_eq_zero_iff]
  case lmsUpdate =>
    have e := mask_ch hdr 0x05
    rw [key] at e
    simp only [Opcode.mask, Opcode.matchWord, reservedBitSet, hop, Opcode.byte] at h e ⊢
    refine e.trans ?_
    simp [h, extract_eq_zero_iff]
  case sliceDecode =>
    have e := mask_ch hdr 0x10
    rw [key] at e
    simp only [Opcode.mask, Opcode.matchWord, reservedBitSet, hop, Opcode.byte] at h e ⊢
    refine e.trans ?_
    simp [h, extract_eq_zero_iff]

theorem payloadLen_eq (hdr : Beat) : payloadLen hdr = payloadCount hdr := by
  simp only [payloadLen, payloadCount, hdrOp_toNat, hdrCnt_toNat] <;> rfl

/-- What the decoder answers once a header's payload is there. -/
theorem decode_whole (hdr : Beat) (got rest : List Beat) (h : got.length = payloadLen hdr) :
    decode (hdr :: (got ++ rest)) = decodeWhole hdr got rest := by
  simp only [decode]
  rw [if_neg (by simp [h]), ← h]
  simp

theorem decodeWhole_reservedOpcode {hdr : Beat} (got rest : List Beat)
    (h : definedOp (opOf hdr) = false) : decodeWhole hdr got rest = .rejected .reservedOpcode := by
  rw [← hdrOp_toNat, ← opcodeOfByte_eq_none_iff] at h
  simp [decodeWhole, h]

/-- A defined opcode decodes to its command, or is rejected for a reserved bit. -/
theorem decodeWhole_defined {hdr : Beat} (got rest : List Beat) (h : definedOp (opOf hdr) = true) :
    ∃ op : Opcode, hdrOp hdr = op.byte ∧ decodeWhole hdr got rest =
      if reservedBitSet hdr = true then .rejected .reservedBits
      else .command (op.assemble hdr got) rest := by
  cases ho : opcodeOfByte (hdrOp hdr) with
  | none =>
    rw [opcodeOfByte_eq_none_iff, hdrOp_toNat, h] at ho
    cases ho
  | some op =>
    refine ⟨op, (byte_of_opcodeOfByte ho).symm, ?_⟩
    have hm := mask_iff op hdr (byte_of_opcodeOfByte ho).symm
    simp only [decodeWhole, ho, hm]
    cases reservedBitSet hdr <;> simp

theorem decodeWhole_command {hdr : Beat} {op : Opcode} (got rest : List Beat) (h : hdrOp hdr = op.byte)
    (hr : reservedBitSet hdr = false) :
    decodeWhole hdr got rest = .command (op.assemble hdr got) rest := by
  simp [decodeWhole, h, opcodeOfByte_byte, (mask_iff op hdr h).2 hr]

/-- Everything a command answer of the decoder says: the header, its payload, the rest, and how the command was
assembled. -/
theorem decode_eq_command {hdr : Beat} {more rest : List Beat} {i : Instr}
    (h : decode (hdr :: more) = .command i rest) :
    ∃ op : Opcode, hdrOp hdr = op.byte ∧ reservedBitSet hdr = false ∧ payloadLen hdr ≤ more.length ∧
      i = op.assemble hdr (more.take (payloadLen hdr)) ∧ rest = more.drop (payloadLen hdr) := by
  simp only [decode] at h
  split at h
  · cases h
  · rename_i hl
    simp only [decodeWhole] at h
    split at h
    · cases h
    · rename_i op ho
      have hb := (byte_of_opcodeOfByte ho).symm
      split at h
      · rename_i hm
        injection h with h1 h2
        exact ⟨op, hb, (mask_iff op hdr hb).1 hm, by omega, h1.symm, h2.symm⟩
      · cases h

/-! ### Beats of operands -/

theorem sampleOfBeat_toNat (b : Beat) : (sampleOfBeat b).toNat = b.toNat % 2 ^ 16 := by
  simp [sampleOfBeat, BitVec.extractLsb'_toNat]

/-- A sample survives its payload beat. -/
@[simp] theorem sampleOfBeat_beatOfSample (x : S16) : sampleOfBeat (beatOfSample x) = x := by
  apply BitVec.eq_of_toNat_eq
  have := x.isLt
  rw [sampleOfBeat_toNat, beatOfSample, BitVec.toNat_setWidth]
  omega

theorem pairBeat_toNat (a b : S16) : (pairBeat a b).toNat = a.toNat * 2 ^ 16 + b.toNat := toNat_append a b

theorem highHalf_toNat (b : Beat) : (highHalf b).toNat = b.toNat / 2 ^ 16 := by
  have := b.isLt
  simp only [highHalf, BitVec.extractLsb'_toNat, Nat.shiftRight_eq_div_pow]
  omega

theorem lowHalf_toNat (b : Beat) : (lowHalf b).toNat = b.toNat % 2 ^ 16 := by
  simp [lowHalf, BitVec.extractLsb'_toNat]

@[simp] theorem highHalf_pairBeat (a b : S16) : highHalf (pairBeat a b) = a := by
  apply BitVec.eq_of_toNat_eq
  rw [highHalf_toNat, pairBeat_toNat]
  have := a.isLt
  have := b.isLt
  omega

@[simp] theorem lowHalf_pairBeat (a b : S16) : lowHalf (pairBeat a b) = b := by
  apply BitVec.eq_of_toNat_eq
  rw [lowHalf_toNat, pairBeat_toNat]
  have := a.isLt
  have := b.isLt
  omega

/-- A snapshot survives its four beats. -/
theorem snapshotOfBeats_pairBeat (v : LmsState) : snapshotOfBeats (pairBeat v.h.t0 v.h.t1)
    (pairBeat v.h.t2 v.h.t3) (pairBeat v.w.t0 v.w.t1) (pairBeat v.w.t2 v.w.t3) = v := by
  simp [snapshotOfBeats]

theorem sliceOfBeats_toNat (a b : Beat) : (sliceOfBeats a b).toNat = a.toNat * 2 ^ 32 + b.toNat :=
  toNat_append a b

/-- A slice word survives its two beats. -/
@[simp] theorem sliceOfBeats_extract (v : BitVec 64) :
    sliceOfBeats (v.extractLsb' 32 32) (v.extractLsb' 0 32) = v := by
  apply BitVec.eq_of_toNat_eq
  rw [sliceOfBeats_toNat]
  simp only [BitVec.extractLsb'_toNat, Nat.shiftRight_eq_div_pow]
  have := v.isLt
  omega

theorem beatsOfSlice_eq (v : BitVec 64) :
    beatsOfSlice v = [BitVec.ofNat 32 (v.toNat / 2 ^ 32), BitVec.ofNat 32 v.toNat] := by
  simp only [beatsOfSlice]
  congr 1
  apply BitVec.eq_of_toNat_eq
  simp [BitVec.extractLsb'_toNat, Nat.shiftRight_eq_div_pow]

/-! ### The encoder's header and the decoder's command -/

theorem opOf_makeHeader (op : BitVec 8) (c : Channel) (sfq : Sfq) (r : Code) (n : BitVec 5) :
    opOf (makeHeader op c sfq r n) = op.toNat := by
  rw [← hdrOp_toNat, hdrOp_makeHeader]

theorem hdrOp_encodeHeader (i : Instr) : hdrOp (encodeHeader i) = i.opcode.byte := by
  cases i <;> simp [encodeHeader, hdrOp_makeHeader, Instr.opcode, Opcode.byte]

theorem opNumber_eq (i : Instr) : opNumber i = i.opcode.byte.toNat := by cases i <;> rfl

@[simp] theorem opcode_assemble (op : Opcode) (hdr : Beat) (got : List Beat) :
    (op.assemble hdr got).opcode = op := by cases op <;> rfl

/-- A header whose operand fields are a command's is the command's header. -/
theorem encodeHeader_assemble {op : Opcode} {hdr : Beat} {got : List Beat} (h : hdrOp hdr = op.byte)
    (hr : reservedBitSet hdr = false) (hl : got.length = payloadLen hdr) :
    encodeHeader (op.assemble hdr got) = hdr := by
  have hop : hdr.toNat / 2 ^ 24 = op.byte.toNat := by
    have := congrArg BitVec.toNat h
    rwa [hdrOp_toNat] at this
  have hop' : opOf hdr = op.byte.toNat := hop
  rw [payloadLen_eq] at hl
  cases op <;> simp only [reservedBitSet, hop', Opcode.byte] at hr <;> apply BitVec.eq_of_toNat_eq <;>
    simp [Opcode.assemble, encodeHeader, makeHeader_toNat, hdrCh_toNat, hdrSfq_toNat, hdrCode_toNat, chOf,
      Opcode.byte] at hr hop ⊢ <;> try omega
  simp [payloadCount, hop', Opcode.byte] at hl
  omega

theorem wellFormed_assemble {op : Opcode} {hdr : Beat} {got : List Beat} (h : hdrOp hdr = op.byte)
    (hl : got.length = payloadLen hdr) : (op.assemble hdr got).wellFormed = true := by
  cases op <;> simp [Opcode.assemble, Instr.wellFormed]
  have hop' : opOf hdr = 0x11 := by rw [← hdrOp_toNat, h]; rfl
  rw [hl, payloadLen_eq, payloadCount, hop']
  simp only
  omega

/-- `decode_whole` with no beats left over. -/
theorem decode_got {hdr : Beat} {got : List Beat} (h : got.length = payloadLen hdr) :
    decode (hdr :: got) = decodeWhole hdr got [] := by
  simpa using decode_whole hdr got [] h

/-! ### Status beats -/

/-- A status beat as a number. -/
theorem statusWord_eq (op : BitVec 8) (ch : Channel) (st : Machine.Status) :
    Machine.statusWord op ch st = statusBeat op.toNat ch.toNat st.code.toNat := by
  apply BitVec.eq_of_toNat_eq
  have h : (Machine.statusWord op ch st).toNat = (((op ++ ch) ++ 0#8) ++ st.code).toNat := rfl
  rw [h]
  simp only [toNat_append, BitVec.toNat_ofNat, statusBeat]
  have := op.isLt
  have := ch.isLt
  have := st.code.isLt
  omega

end Sys2Proof
end

