-- ==== Sys2Proof/Laws/State.lean ====
section
/-! SUPPORT. One lemma per field per update of the state, and what the updates do to reading a slot. -/

namespace Sys2Proof.Machine

/-! ### `State.setSlot` -/

@[simp] theorem State.setSlot_bank (s : State) (c : Channel) (v : LmsState) :
    (s.setSlot c v).bank = s.bank.set c.toNat v := rfl

@[simp] theorem State.setSlot_parser (s : State) (c : Channel) (v : LmsState) :
    (s.setSlot c v).parser = s.parser := rfl

@[simp] theorem State.setSlot_rspQueue (s : State) (c : Channel) (v : LmsState) :
    (s.setSlot c v).rspQueue = s.rspQueue := rfl

@[simp] theorem State.setSlot_cmdStream (s : State) (c : Channel) (v : LmsState) :
    (s.setSlot c v).cmdStream = s.cmdStream := rfl

@[simp] theorem State.setSlot_edges (s : State) (c : Channel) (v : LmsState) :
    (s.setSlot c v).edges = s.edges := rfl

@[simp] theorem State.setSlot_rspTaken (s : State) (c : Channel) (v : LmsState) :
    (s.setSlot c v).rspTaken = s.rspTaken := rfl

@[simp] theorem State.setSlot_edgeCount (s : State) (c : Channel) (v : LmsState) :
    (s.setSlot c v).edgeCount = s.edgeCount := rfl

/-! ### `State.respond` -/

@[simp] theorem State.respond_bank (s : State) (words : List Beat) :
    (s.respond words).bank = s.bank := rfl

@[simp] theorem State.respond_parser (s : State) (words : List Beat) :
    (s.respond words).parser = s.parser := rfl

@[simp] theorem State.respond_rspQueue (s : State) (words : List Beat) :
    (s.respond words).rspQueue = s.rspQueue ++ words := rfl

@[simp] theorem State.respond_cmdStream (s : State) (words : List Beat) :
    (s.respond words).cmdStream = s.cmdStream := rfl

@[simp] theorem State.respond_edges (s : State) (words : List Beat) :
    (s.respond words).edges = s.edges := rfl

@[simp] theorem State.respond_rspTaken (s : State) (words : List Beat) :
    (s.respond words).rspTaken = s.rspTaken := rfl

@[simp] theorem State.respond_edgeCount (s : State) (words : List Beat) :
    (s.respond words).edgeCount = s.edgeCount := rfl

/-! ### `State.advance` -/

@[simp] theorem State.advance_bank (s : State) :
    (s.advance).bank = s.bank := rfl

@[simp] theorem State.advance_parser (s : State) :
    (s.advance).parser = s.parser := rfl

@[simp] theorem State.advance_rspQueue (s : State) :
    (s.advance).rspQueue = s.rspQueue := rfl

@[simp] theorem State.advance_cmdStream (s : State) :
    (s.advance).cmdStream = s.cmdStream := rfl

@[simp] theorem State.advance_edges (s : State) :
    (s.advance).edges = s.edges.tail := rfl

@[simp] theorem State.advance_rspTaken (s : State) :
    (s.advance).rspTaken = s.rspTaken := rfl

@[simp] theorem State.advance_edgeCount (s : State) :
    (s.advance).edgeCount = s.edgeCount + 1 := rfl

/-! ### `State.endCollect` -/

@[simp] theorem State.endCollect_bank (s : State) :
    (s.endCollect).bank = s.bank := rfl

@[simp] theorem State.endCollect_parser (s : State) :
    (s.endCollect).parser = .idle := rfl

@[simp] theorem State.endCollect_rspQueue (s : State) :
    (s.endCollect).rspQueue = s.rspQueue := rfl

@[simp] theorem State.endCollect_cmdStream (s : State) :
    (s.endCollect).cmdStream = s.cmdStream := rfl

@[simp] theorem State.endCollect_edges (s : State) :
    (s.endCollect).edges = s.edges := rfl

@[simp] theorem State.endCollect_rspTaken (s : State) :
    (s.endCollect).rspTaken = s.rspTaken := rfl

@[simp] theorem State.endCollect_edgeCount (s : State) :
    (s.endCollect).edgeCount = s.edgeCount := rfl

/-! ### `State.applyReset` -/

@[simp] theorem State.applyReset_bank (s : State) :
    (s.applyReset).bank = s.bank.map fun _ => Config.initLms := rfl

@[simp] theorem State.applyReset_parser (s : State) :
    (s.applyReset).parser = .idle := rfl

@[simp] theorem State.applyReset_rspQueue (s : State) :
    (s.applyReset).rspQueue = [] := rfl

@[simp] theorem State.applyReset_cmdStream (s : State) :
    (s.applyReset).cmdStream = s.cmdStream := rfl

@[simp] theorem State.applyReset_edges (s : State) :
    (s.applyReset).edges = s.edges := rfl

@[simp] theorem State.applyReset_rspTaken (s : State) :
    (s.applyReset).rspTaken = s.rspTaken := rfl

@[simp] theorem State.applyReset_edgeCount (s : State) :
    (s.applyReset).edgeCount = s.edgeCount := rfl

/-! ### The number of slots, and reading a slot -/

theorem State.slot_eq_some_iff (s : State) (c : Channel) :
    (∃ v, s.slot c = some v) ↔ c.toNat < s.nch := by
  rw [← Option.isSome_iff_exists]
  simp [State.slot, State.nch]

theorem State.slot_eq_none_iff (s : State) (c : Channel) : s.slot c = none ↔ s.nch ≤ c.toNat := by
  simp [State.slot, State.nch]

theorem State.lt_nch_of_slot {s : State} {c : Channel} {v : LmsState} (h : s.slot c = some v) :
    c.toNat < s.nch := (s.slot_eq_some_iff c).1 ⟨v, h⟩

@[simp] theorem State.setSlot_nch (s : State) (c : Channel) (v : LmsState) :
    (s.setSlot c v).nch = s.nch := by
  simp [State.nch]

@[simp] theorem State.respond_nch (s : State) (words : List Beat) : (s.respond words).nch = s.nch := rfl

@[simp] theorem State.advance_nch (s : State) : s.advance.nch = s.nch := rfl

@[simp] theorem State.endCollect_nch (s : State) : s.endCollect.nch = s.nch := rfl

@[simp] theorem State.applyReset_nch (s : State) : s.applyReset.nch = s.nch := by
  simp [State.nch]

@[simp] theorem State.respond_slot (s : State) (words : List Beat) (c : Channel) :
    (s.respond words).slot c = s.slot c := rfl

/-- A slot that is written reads back what was written. -/
theorem State.setSlot_slot_self {s : State} {c : Channel} (v : LmsState) (h : c.toNat < s.nch) :
    (s.setSlot c v).slot c = some v := by
  have h' : c.toNat < s.bank.length := h
  simp [State.slot, h']

/-- Writing a slot leaves every other place of the bank alone. -/
theorem State.setSlot_bank_ne (s : State) (c : Channel) (v : LmsState) (k : Nat) (h : c.toNat ≠ k) :
    (s.setSlot c v).bank[k]? = s.bank[k]? := by
  simp [List.getElem?_set_ne h]

/-- Writing back what a slot holds changes nothing. -/
theorem State.setSlot_same {s : State} {c : Channel} {v : LmsState} (h : s.slot c = some v) :
    s.setSlot c v = s := by
  obtain ⟨hlt, hv⟩ := List.getElem?_eq_some_iff.1 h
  have : s.bank.set c.toNat v = s.bank := by rw [← hv]; exact List.set_getElem_self hlt
  simp [State.setSlot, this]

end Sys2Proof.Machine
end

