-- ==== Sys2Proof/Laws/Ops.lean ====
section
/-! SUPPORT. What each shared operation can do, said once, and the one inversion lemma of `exec`. -/

namespace Sys2Proof.Machine

theorem complete_eq_next {op : Opcode} {ch : Channel} {ws : List Beat} {s t : State}
    (h : complete op ch ws s = .next t) : t = s.respond (statusWord op.byte ch .ok :: ws) :=
  (Host.Outcome.next.inj h).symm

theorem raise_eq_next {op : BitVec 8} {ch : Channel} {st : Status} {s t : State}
    (h : raise op ch st s = .next t) : t = s.respond [statusWord op ch st] :=
  (Host.Outcome.next.inj h).symm

theorem withSlot_of_slot {op : Opcode} {c : Channel} {s : State} {v : LmsState} (k : LmsState → Result)
    (h : s.slot c = some v) : withSlot op c s k = k v := by
  simp [withSlot, h]

theorem withSlot_of_no_slot {op : Opcode} {c : Channel} {s : State} (k : LmsState → Result)
    (h : s.nch ≤ c.toNat) : withSlot op c s k = raise op.byte c .errChannel s := by
  simp [withSlot, (s.slot_eq_none_iff c).2 h]

/-- A command on a slot either raises `ERR_CHANNEL`, the slot being absent, or runs on what the slot holds. -/
theorem withSlot_cases (op : Opcode) (c : Channel) (s : State) (k : LmsState → Result) :
    (s.nch ≤ c.toNat ∧ withSlot op c s k = raise op.byte c .errChannel s) ∨
    ∃ v, s.slot c = some v ∧ withSlot op c s k = k v := by
  cases h : s.slot c with
  | none => exact .inl ⟨(s.slot_eq_none_iff c).1 h, by simp [withSlot, h]⟩
  | some v => exact .inr ⟨v, rfl, by simp [withSlot, h]⟩

/-- The slot a command is given to write, where it writes one. -/
def slotWritten (i : Instr) (v : LmsState) : Option LmsState :=
  match i with
  | .nop => none
  | .lmsInit _ => some Config.initLms
  | .lmsLoad _ snap => some snap
  | .lmsStore _ => none
  | .lmsPredict _ => none
  | .lmsUpdate _ residual sample => some (update v residual.toInt sample)
  | .sfLookup _ => none
  | .dequant _ _ => none
  | .quantize _ _ => none
  | .sliceDecode _ slice => some (decodeSlot (unpackSfq slice) (unpackCodes slice) v)
  | .sliceEncode _ xs => some (selectWinner v xs).slot

/-- The result beats of a command that completes on slot content `v`. -/
def resultBeats (i : Instr) (v : LmsState) : List Beat :=
  match i with
  | .nop => []
  | .lmsInit _ => []
  | .lmsLoad _ _ => []
  | .lmsStore _ => beatsOfSnapshot v
  | .lmsPredict _ => [sext32 (predict v)]
  | .lmsUpdate _ _ _ => []
  | .sfLookup sfq => [zext32 (scaleFactor sfq)]
  | .dequant sfq r => [sext32 (deq sfq r)]
  | .quantize sfq e => [zext32 (quant sfq e.toInt).1.toNat, sext32 (quant sfq e.toInt).2]
  | .sliceDecode _ slice => (decodeSamples (unpackSfq slice) (unpackCodes slice) v).map sext32
  | .sliceEncode _ xs => encodeResults (selectWinner v xs)

/-- SLICE_ENCODE with more than 20 samples. -/
def tooManySamples : Instr → Bool
  | .sliceEncode _ xs => decide (20 < xs.length)
  | .nop => false
  | .lmsInit _ => false
  | .lmsLoad _ _ => false
  | .lmsStore _ => false
  | .lmsPredict _ => false
  | .lmsUpdate _ _ _ => false
  | .sfLookup _ => false
  | .dequant _ _ => false
  | .quantize _ _ => false
  | .sliceDecode _ _ => false

/-- The slot update of a command: its named slot gets the written content, if it writes one. -/
def State.writeNamed (s : State) (c : Channel) (v : Option LmsState) : State :=
  match v with
  | none => s
  | some v => s.setSlot c v

@[simp] theorem State.writeNamed_parser (s : State) (c : Channel) (v : Option LmsState) :
    (s.writeNamed c v).parser = s.parser := by cases v <;> rfl

@[simp] theorem State.writeNamed_rspQueue (s : State) (c : Channel) (v : Option LmsState) :
    (s.writeNamed c v).rspQueue = s.rspQueue := by cases v <;> rfl

@[simp] theorem State.writeNamed_cmdStream (s : State) (c : Channel) (v : Option LmsState) :
    (s.writeNamed c v).cmdStream = s.cmdStream := by cases v <;> rfl

@[simp] theorem State.writeNamed_edges (s : State) (c : Channel) (v : Option LmsState) :
    (s.writeNamed c v).edges = s.edges := by cases v <;> rfl

@[simp] theorem State.writeNamed_rspTaken (s : State) (c : Channel) (v : Option LmsState) :
    (s.writeNamed c v).rspTaken = s.rspTaken := by cases v <;> rfl

@[simp] theorem State.writeNamed_edgeCount (s : State) (c : Channel) (v : Option LmsState) :
    (s.writeNamed c v).edgeCount = s.edgeCount := by cases v <;> rfl

@[simp] theorem State.writeNamed_nch (s : State) (c : Channel) (v : Option LmsState) :
    (s.writeNamed c v).nch = s.nch := by cases v <;> simp [State.writeNamed]

/-- Everything `exec` can do: a command that names no slot completes; one that names an absent slot, or encodes
too many samples, answers with the error alone; any other completes on what its slot holds. -/
theorem exec_cases (i : Instr) (s : State) :
    (Safety.slotOf i = none ∧ (∀ v, slotWritten i v = none) ∧
      ∀ v, exec i s = .next (s.respond (statusWord i.opcode.byte 0 .ok :: resultBeats i v))) ∨
    ∃ c, Safety.slotOf i = some c ∧
      ((s.nch ≤ c.toNat ∧ exec i s = .next (s.respond [statusWord i.opcode.byte c .errChannel])) ∨
       ∃ v, s.slot c = some v ∧
        ((tooManySamples i = true ∧ exec i s = .next (s.respond [statusWord i.opcode.byte c .errCount])) ∨
         (tooManySamples i = false ∧ exec i s = .next ((s.writeNamed c (slotWritten i v)).respond
            (statusWord i.opcode.byte c .ok :: resultBeats i v))))) := by
  have key : ∀ (op : Opcode) (c : Channel) (k : LmsState → Result) (w : LmsState → State),
      (∀ v, k v = .next (w v)) →
      (s.nch ≤ c.toNat ∧ withSlot op c s k = .next (s.respond [statusWord op.byte c .errChannel])) ∨
      ∃ v, s.slot c = some v ∧ withSlot op c s k = .next (w v) := by
    intro op c k w hw
    rcases withSlot_cases op c s k with ⟨hn, h⟩ | ⟨v, hv, h⟩
    · exact .inl ⟨hn, h⟩
    · exact .inr ⟨v, hv, h.trans (hw v)⟩
  cases i with
  | nop => exact .inl ⟨rfl, fun _ => rfl, fun _ => rfl⟩
  | sfLookup sfq => exact .inl ⟨rfl, fun _ => rfl, fun _ => rfl⟩
  | dequant sfq r => exact .inl ⟨rfl, fun _ => rfl, fun _ => rfl⟩
  | quantize sfq e => exact .inl ⟨rfl, fun _ => rfl, fun _ => rfl⟩
  | lmsInit c =>
    refine .inr ⟨c, rfl, (key .lmsInit c _ _ fun _ => rfl).imp id ?_⟩
    exact fun ⟨v, hv, h⟩ => ⟨v, hv, .inr ⟨rfl, h⟩⟩
  | lmsLoad c snap =>
    refine .inr ⟨c, rfl, (key .lmsLoad c _ _ fun _ => rfl).imp id ?_⟩
    exact fun ⟨v, hv, h⟩ => ⟨v, hv, .inr ⟨rfl, h⟩⟩
  | lmsStore c =>
    refine .inr ⟨c, rfl, (key .lmsStore c _ _ fun _ => rfl).imp id ?_⟩
    exact fun ⟨v, hv, h⟩ => ⟨v, hv, .inr ⟨rfl, h⟩⟩
  | lmsPredict c =>
    refine .inr ⟨c, rfl, (key .lmsPredict c _ _ fun _ => rfl).imp id ?_⟩
    exact fun ⟨v, hv, h⟩ => ⟨v, hv, .inr ⟨rfl, h⟩⟩
  | lmsUpdate c residual sample =>
    refine .inr ⟨c, rfl, (key .lmsUpdate c _ _ fun _ => rfl).imp id ?_⟩
    exact fun ⟨v, hv, h⟩ => ⟨v, hv, .inr ⟨rfl, h⟩⟩
  | sliceDecode c slice =>
    refine .inr ⟨c, rfl, (key .sliceDecode c _ _ fun _ => rfl).imp id ?_⟩
    exact fun ⟨v, hv, h⟩ => ⟨v, hv, .inr ⟨rfl, h⟩⟩
  | sliceEncode c xs =>
    refine .inr ⟨c, rfl, ?_⟩
    rcases withSlot_cases .sliceEncode c s _ with ⟨hn, h⟩ | ⟨v, hv, h⟩
    · exact .inl ⟨hn, h⟩
    · refine .inr ⟨v, hv, ?_⟩
      by_cases hx : 20 < xs.length
      · exact .inl ⟨by simp [tooManySamples, hx], h.trans (by simp [Config.samplesPerSlice, hx]; rfl)⟩
      · exact .inr ⟨by simp [tooManySamples] at hx ⊢; omega,
          h.trans (by simp [Config.samplesPerSlice, hx]; rfl)⟩

/-- Every command answers a next state that adds to the response queue and leaves the parser, the host's side
and the number of slots as they are. -/
theorem exec_next (i : Instr) (s : State) :
    ∃ t w ws, exec i s = .next t ∧ t.rspQueue = s.rspQueue ++ w :: ws ∧ t.parser = s.parser ∧
      t.cmdStream = s.cmdStream ∧ t.edges = s.edges ∧ t.rspTaken = s.rspTaken ∧
      t.edgeCount = s.edgeCount ∧ t.nch = s.nch := by
  rcases exec_cases i s with ⟨_, _, h⟩ | ⟨c, _, ⟨_, h⟩ | ⟨v, _, ⟨_, h⟩ | ⟨_, h⟩⟩⟩
  · exact ⟨_, _, _, h Config.initLms, rfl, rfl, rfl, rfl, rfl, rfl, rfl⟩
  · exact ⟨_, _, _, h, rfl, rfl, rfl, rfl, rfl, rfl, rfl⟩
  · exact ⟨_, _, _, h, rfl, rfl, rfl, rfl, rfl, rfl, rfl⟩
  · exact ⟨_, statusWord i.opcode.byte c .ok, resultBeats i v, h, by simp, by simp, by simp, by simp, by simp,
      by simp, by simp⟩

/-- A command on a slot that is there, and not an encode of too many samples, completes. -/
theorem exec_of_slot {s : State} {c : Channel} {v : LmsState} (i : Instr) (h : s.slot c = some v)
    (hi : Safety.slotOf i = some c) (ht : tooManySamples i = false) :
    exec i s = .next ((s.writeNamed c (slotWritten i v)).respond
      (Safety.statusBeat i.opcode.byte.toNat c.toNat 0 :: resultBeats i v)) := by
  rcases exec_cases i s with ⟨h1, _⟩ | ⟨c', h1, ⟨h2, _⟩ | ⟨v', h2, ⟨h3, _⟩ | ⟨_, h3⟩⟩⟩
  · simp [hi] at h1
  · rw [hi] at h1
    cases h1
    have := State.lt_nch_of_slot h
    omega
  · rw [ht] at h3
    cases h3
  · rw [hi] at h1
    cases h1
    rw [h] at h2
    cases h2
    rw [h3, statusWord_eq]
    rfl

theorem slotWritten_of_reads {i : Instr} (h : Safety.writesSlot i = false) (v : LmsState) :
    slotWritten i v = none := by
  cases i <;> simp_all [Safety.writesSlot, slotWritten]

theorem State.writeNamed_bank_ne (s : State) (c : Channel) (w : Option LmsState) (k : Nat)
    (h : c.toNat ≠ k) : (s.writeNamed c w).bank[k]? = s.bank[k]? := by
  cases w with
  | none => rfl
  | some w => exact State.setSlot_bank_ne s c w k h

end Sys2Proof.Machine
end

