-- ==== Sys2Proof/Laws/PerInstr.lean ====
section
/-! SUPPORT. What holds of every command as syntax, one lemma per constructor: the encoder's payload is as long as
its header says (30_encoding.md R66), and its header sets no reserved bit (30_encoding.md R62, R70). -/

namespace Sys2Proof.Laws.EncodedLength

/-- The encoder writes exactly the payload beats that the header calls for. -/
def Statement (i : Instr) : Prop :=
  i.wellFormed = true → (encodePayload i).length = payloadLen (encodeHeader i)

theorem nop : Statement .nop := fun _ => rfl

theorem lmsInit (c : Channel) : Statement (.lmsInit c) := by
  simp [Statement, encodePayload, encodeHeader, payloadLen, hdrOp_makeHeader]

theorem lmsLoad (c : Channel) (snap : LmsState) : Statement (.lmsLoad c snap) := by
  simp [Statement, encodePayload, encodeHeader, payloadLen, hdrOp_makeHeader, beatsOfSnapshot]

theorem lmsStore (c : Channel) : Statement (.lmsStore c) := by
  simp [Statement, encodePayload, encodeHeader, payloadLen, hdrOp_makeHeader]

theorem lmsPredict (c : Channel) : Statement (.lmsPredict c) := by
  simp [Statement, encodePayload, encodeHeader, payloadLen, hdrOp_makeHeader]

theorem lmsUpdate (c : Channel) (residual : BitVec 32) (sample : S16) :
    Statement (.lmsUpdate c residual sample) := by
  simp [Statement, encodePayload, encodeHeader, payloadLen, hdrOp_makeHeader]

theorem sfLookup (sfq : Sfq) : Statement (.sfLookup sfq) := by
  simp [Statement, encodePayload, encodeHeader, payloadLen, hdrOp_makeHeader]

theorem dequant (sfq : Sfq) (r : Code) : Statement (.dequant sfq r) := by
  simp [Statement, encodePayload, encodeHeader, payloadLen, hdrOp_makeHeader]

theorem quantize (sfq : Sfq) (e : BitVec 32) : Statement (.quantize sfq e) := by
  simp [Statement, encodePayload, encodeHeader, payloadLen, hdrOp_makeHeader]

theorem sliceDecode (c : Channel) (slice : BitVec 64) : Statement (.sliceDecode c slice) := by
  simp [Statement, encodePayload, encodeHeader, payloadLen, hdrOp_makeHeader, beatsOfSlice]

theorem sliceEncode (c : Channel) (samples : List S16) : Statement (.sliceEncode c samples) := by
  intro h
  simp [Instr.wellFormed] at h
  simp [encodePayload, encodeHeader, payloadLen, hdrOp_makeHeader, hdrCnt_makeHeader]
  omega

end Sys2Proof.Laws.EncodedLength

namespace Sys2Proof.Laws.ReservedBitsZero

open Sys2Proof.Safety

/-- The encoder leaves every reserved-zero bit of its header zero. -/
def Statement (i : Instr) : Prop := reservedBitSet (encodeHeader i) = false

theorem nop : Statement .nop := rfl

theorem lmsInit (c : Channel) : Statement (.lmsInit c) := by
  simp [Statement, encodeHeader, reservedBitSet, opOf_makeHeader, makeHeader_toNat]

theorem lmsLoad (c : Channel) (snap : LmsState) : Statement (.lmsLoad c snap) := by
  simp [Statement, encodeHeader, reservedBitSet, opOf_makeHeader, makeHeader_toNat]

theorem lmsStore (c : Channel) : Statement (.lmsStore c) := by
  simp [Statement, encodeHeader, reservedBitSet, opOf_makeHeader, makeHeader_toNat]

theorem lmsPredict (c : Channel) : Statement (.lmsPredict c) := by
  simp [Statement, encodeHeader, reservedBitSet, opOf_makeHeader, makeHeader_toNat]

theorem lmsUpdate (c : Channel) (residual : BitVec 32) (sample : S16) :
    Statement (.lmsUpdate c residual sample) := by
  simp [Statement, encodeHeader, reservedBitSet, opOf_makeHeader, makeHeader_toNat]

theorem sfLookup (sfq : Sfq) : Statement (.sfLookup sfq) := by
  simp [Statement, encodeHeader, reservedBitSet, opOf_makeHeader, chOf, makeHeader_toNat]
  omega

theorem dequant (sfq : Sfq) (r : Code) : Statement (.dequant sfq r) := by
  simp [Statement, encodeHeader, reservedBitSet, opOf_makeHeader, chOf, makeHeader_toNat]
  omega

theorem quantize (sfq : Sfq) (e : BitVec 32) : Statement (.quantize sfq e) := by
  simp [Statement, encodeHeader, reservedBitSet, opOf_makeHeader, chOf, makeHeader_toNat]
  omega

theorem sliceDecode (c : Channel) (slice : BitVec 64) : Statement (.sliceDecode c slice) := by
  simp [Statement, encodeHeader, reservedBitSet, opOf_makeHeader, makeHeader_toNat]

theorem sliceEncode (c : Channel) (samples : List S16) : Statement (.sliceEncode c samples) := by
  simp [Statement, encodeHeader, reservedBitSet, opOf_makeHeader, makeHeader_toNat]
  omega

end Sys2Proof.Laws.ReservedBitsZero
end

