-- ==== Sys2Proof/Laws/Ports.lean ====
section
/-! SUPPORT. What one clock edge can do, said once, and what the movement of beats keeps. -/

namespace Sys2Proof.Machine

open Sys2Proof.Safety

/-! ### The movement of beats -/

/-- Taking a response beat: nothing, or the head of the queue moves to the host. -/
theorem State.takeResponse_cases (s : State) :
    (s.rspQueue = [] ∧ s.takeResponse = s) ∨
    ∃ w ws, s.rspQueue = w :: ws ∧
      s.takeResponse = { s with rspQueue := ws, rspTaken := s.rspTaken ++ [w] } := by
  cases h : s.rspQueue with
  | nil => exact .inl ⟨rfl, by simp [State.takeResponse, h]⟩
  | cons w ws => exact .inr ⟨w, ws, rfl, by simp [State.takeResponse, h]⟩

/-- Taking a command beat: nothing, or the head of the host's stream moves to the parser. -/
theorem State.takeCommand_cases (s : State) :
    (s.cmdStream = [] ∧ s.takeCommand = s) ∨
    ∃ b bs, s.cmdStream = b :: bs ∧
      s.takeCommand = { s with cmdStream := bs, parser := s.parser.push b } := by
  cases h : s.cmdStream with
  | nil => exact .inl ⟨rfl, by simp [State.takeCommand, h]⟩
  | cons b bs => exact .inr ⟨b, bs, rfl, by simp [State.takeCommand, h]⟩

theorem parserBeats_push (p : Parser) (b : Beat) : parserBeats (p.push b) = parserBeats p ++ [b] := by
  cases p <;> rfl

theorem parserFits_push {p : Parser} (b : Beat) (h : p.ready = false) : parserFits (p.push b) = true := by
  cases p with
  | idle => simp [Parser.push, parserFits]
  | collect hdr got =>
    simp [Parser.ready] at h
    simp [Parser.push, parserFits]
    omega

/-- Everything that can move on the ports at one edge: on the response port nothing or the head of the queue to
a ready host, on the command port nothing, one of the pins being low or no beat there, or an offered beat to a
parser that can take one. -/
theorem State.movePorts_cases (s : State) :
    ∃ q taken p stream, s.movePorts = { s with rspQueue := q, rspTaken := taken, parser := p, cmdStream := stream } ∧
      ((q = s.rspQueue ∧ taken = s.rspTaken ∧ (s.rspValid = false ∨ s.hostEdge.rspReady = false)) ∨
        ∃ w, s.rspQueue = w :: q ∧ taken = s.rspTaken ++ [w] ∧ s.rspValid = true ∧
          s.hostEdge.rspReady = true) ∧
      ((p = s.parser ∧ stream = s.cmdStream ∧
          (s.hostEdge.cmdValid = false ∨ s.cmdReady = false ∨ s.cmdStream = [])) ∨
        ∃ b, s.cmdStream = b :: stream ∧ p = s.parser.push b ∧ s.parser.ready = false ∧ s.cmdReady = true ∧
          s.hostEdge.cmdValid = true) := by
  have first : ∃ q taken, (if s.rspValid && s.hostEdge.rspReady then s.takeResponse else s)
        = { s with rspQueue := q, rspTaken := taken } ∧
      ((q = s.rspQueue ∧ taken = s.rspTaken ∧ (s.rspValid = false ∨ s.hostEdge.rspReady = false)) ∨
        ∃ w, s.rspQueue = w :: q ∧ taken = s.rspTaken ++ [w] ∧ s.rspValid = true ∧
          s.hostEdge.rspReady = true) := by
    by_cases hv : s.rspValid = true ∧ s.hostEdge.rspReady = true
    · rcases s.takeResponse_cases with ⟨h, _⟩ | ⟨w, ws, h, e⟩
      · exact absurd hv.1 (by simp [State.rspValid, h])
      · exact ⟨ws, s.rspTaken ++ [w], by simp [hv, e], .inr ⟨w, h, rfl, hv.1, hv.2⟩⟩
    · refine ⟨s.rspQueue, s.rspTaken, by simp [hv], .inl ⟨rfl, rfl, ?_⟩⟩
      revert hv
      cases s.rspValid <;> cases s.hostEdge.rspReady <;> simp
  obtain ⟨q, taken, e, h⟩ := first
  by_cases hc : s.cmdReady = true ∧ s.hostEdge.cmdValid = true
  · have hp : s.parser.ready = false := by
      have := hc.1
      simp [State.cmdReady] at this
      exact this.1.2
    rcases State.takeCommand_cases { s with rspQueue := q, rspTaken := taken } with ⟨hn, e'⟩ | ⟨b, bs, hb, e'⟩
    · exact ⟨q, taken, s.parser, s.cmdStream, by simp only [State.movePorts, e, hc]; exact e', h,
        .inl ⟨rfl, rfl, .inr (.inr hn)⟩⟩
    · exact ⟨q, taken, s.parser.push b, bs, by simp only [State.movePorts, e, hc]; exact e', h,
        .inr ⟨b, hb, rfl, hp, hc.1, hc.2⟩⟩
  · refine ⟨q, taken, s.parser, s.cmdStream, by simp only [State.movePorts, e]; rw [Bool.and_comm]; simp [hc], h,
      .inl ⟨rfl, rfl, ?_⟩⟩
    revert hc
    cases s.cmdReady <;> cases s.hostEdge.cmdValid <;> simp

/-! ### The edge -/

/-- Everything one step can do: reset, the execution of a whole command, or the movement of beats. -/
theorem step_cases (s : State) :
    (s.hostEdge.rst = true ∧ step s = .next s.applyReset.advance) ∨
    (s.hostEdge.rst = false ∧ s.canExecute = true ∧ step s = runCollected s.advance) ∨
    (s.hostEdge.rst = false ∧ s.canExecute = false ∧ step s = .next s.movePorts.advance) := by
  unfold step clockEdge
  cases hr : s.hostEdge.rst
  · cases hc : s.canExecute
    · exact .inr (.inr ⟨rfl, rfl, by simp⟩)
    · exact .inr (.inl ⟨rfl, rfl, by simp⟩)
  · exact .inl ⟨rfl, by simp⟩

/-- A state that waits executes nothing. -/
theorem canExecute_of_waiting {s : State} (h : Waiting s) : s.canExecute = false := by
  rcases h with h | h | ⟨hdr, got, h, hl⟩
  · simp [State.canExecute, h]
  · simp [State.canExecute, h, Parser.ready]
  · simp [State.canExecute, h, Parser.ready]
    omega

theorem step_of_waiting {s : State} (hr : s.hostEdge.rst = false) (h : Waiting s) :
    step s = .next s.movePorts.advance := by
  rcases step_cases s with ⟨h', _⟩ | ⟨_, h', _⟩ | ⟨_, _, h'⟩
  · simp [hr] at h'
  · simp [canExecute_of_waiting h] at h'
  · exact h'

theorem canExecute_of_commandReady {s : State} {hdr : Beat} {got : List Beat} (h : CommandReady s hdr got) :
    s.canExecute = true := by
  obtain ⟨_, hp, hl, hq⟩ := h
  simp [State.canExecute, hp, hq, Parser.ready, hl]

/-- A collected command runs. -/
theorem step_of_commandReady {s : State} {hdr : Beat} {got : List Beat} (h : CommandReady s hdr got) :
    step s = runDecoded (decode (hdr :: got)) hdr s.advance := by
  rcases step_cases s with ⟨h', _⟩ | ⟨_, _, h'⟩ | ⟨_, h', _⟩
  · simp [h.1] at h'
  · rw [h']
    simp [runCollected, h.2.1]
  · simp [canExecute_of_commandReady h] at h'

/-- What a collected command of any kind answers: a next state, with a response or still waiting. -/
theorem runDecoded_next (d : Decoded) (hdr : Beat) (s : State) :
    ∃ t, runDecoded d hdr s = .next t ∧ t.cmdStream = s.cmdStream ∧ t.edges = s.edges ∧
      t.rspTaken = s.rspTaken ∧ t.edgeCount = s.edgeCount ∧ t.nch = s.nch ∧
      ((t.parser = .idle ∧ ∃ w ws, t.rspQueue = s.rspQueue ++ w :: ws) ∨ t = s) := by
  cases d with
  | command i rest =>
    obtain ⟨t, w, ws, h, h1, h2, h3, h4, h5, h6, h7⟩ := exec_next i s.endCollect
    exact ⟨t, h, h3, h4, h5, h6, h7, .inl ⟨h2, w, ws, h1⟩⟩
  | rejected why =>
    cases why with
    | incomplete => exact ⟨s, rfl, rfl, rfl, rfl, rfl, rfl, .inr rfl⟩
    | reservedOpcode => exact ⟨_, rfl, rfl, rfl, rfl, rfl, rfl, .inl ⟨rfl, _, _, rfl⟩⟩
    | reservedBits => exact ⟨_, rfl, rfl, rfl, rfl, rfl, rfl, .inl ⟨rfl, _, _, rfl⟩⟩

theorem runCollected_next (s : State) :
    ∃ t, runCollected s = .next t ∧ t.cmdStream = s.cmdStream ∧ t.edges = s.edges ∧
      t.rspTaken = s.rspTaken ∧ t.edgeCount = s.edgeCount ∧ t.nch = s.nch ∧
      ((t.parser = .idle ∧ ∃ w ws, t.rspQueue = s.rspQueue ++ w :: ws) ∨ t = s) := by
  unfold runCollected
  cases hp : s.parser with
  | idle => exact ⟨s, rfl, rfl, rfl, rfl, rfl, rfl, .inr rfl⟩
  | collect hdr got => exact runDecoded_next _ hdr s

end Sys2Proof.Machine
end

