-- ==== Sys2Proof/Laws/Slice.lean ====
section
/-! SUPPORT. The dequantization table, the slice word's fields as numbers, decode steps, and
the encoder's search against the search without pruning, one candidate at a time. -/

namespace Sys2Proof.Machine

open Sys2Proof.Safety

/-! ### The table and the nearest code -/

/-- Every entry the machine computes is the table's. -/
theorem deq_eq_deqEntry : ∀ (sfq : Sfq) (r : Code), deq sfq r = deqEntry sfq r := by decide

theorem deq_range : ∀ (sfq : Sfq) (r : Code), -14336 ≤ deq sfq r ∧ deq sfq r ≤ 14336 := by decide

theorem Nearest.unique {sfq : Sfq} {e : Int} {a b : Code} (ha : Nearest sfq e a) (hb : Nearest sfq e b) :
    a = b := by
  have h1 := ha b
  have h2 := hb a
  apply BitVec.eq_of_toNat_eq
  omega

/-! ### The slice word -/

theorem unpackSfq_toNat (s : BitVec 64) : (unpackSfq s).toNat = s.toNat / 2 ^ 60 := by
  have := s.isLt
  simp only [unpackSfq, BitVec.extractLsb'_toNat, Nat.shiftRight_eq_div_pow]
  omega

theorem unpackCode_toNat (s : BitVec 64) (j : Nat) :
    (unpackCode s j).toNat = s.toNat / 2 ^ (57 - 3 * j) % 2 ^ 3 := by
  simp only [unpackCode, BitVec.extractLsb'_toNat, Nat.shiftRight_eq_div_pow]

theorem unpackCodes_eq (s : BitVec 64) : unpackCodes s = codesOfNumber s.toNat := by
  simp only [unpackCodes, codesOfNumber, Config.samplesPerSlice]
  apply List.map_congr_left
  intro j _
  apply BitVec.eq_of_toNat_eq
  rw [unpackCode_toNat]
  simp

@[simp] theorem unpackCodes_length (s : BitVec 64) : (unpackCodes s).length = 20 := by
  simp [unpackCodes, Config.samplesPerSlice]

/-- The codes from position `j` on stay below the bits of position `j - 1`, and their bits are their number. -/
theorem packCodes_toNat (codes : List Code) : ∀ j, j + codes.length ≤ 20 →
    (packCodes j codes).toNat = codesNumber j codes ∧ codesNumber j codes < 2 ^ (60 - 3 * j) := by
  induction codes with
  | nil => exact fun j _ => ⟨rfl, by simp [codesNumber]⟩
  | cons r rs ih =>
    intro j hj
    simp at hj
    obtain ⟨h1, h2⟩ := ih (j + 1) (by omega)
    have hr := r.isLt
    have e1 : 60 - 3 * (j + 1) = 57 - 3 * j := by omega
    have e2 : 60 - 3 * j = (57 - 3 * j) + 3 := by omega
    rw [e1] at h2
    have hp : r.toNat * 2 ^ (57 - 3 * j) + 2 ^ (57 - 3 * j) ≤ 2 ^ (60 - 3 * j) := by
      rw [e2, pow_add, ← Nat.succ_mul, Nat.mul_comm]
      exact Nat.mul_le_mul_left _ (by omega)
    have hle : 2 ^ (60 - 3 * j) ≤ 2 ^ 64 := Nat.pow_le_pow_right (by omega) (by omega)
    have hsh : (r.setWidth 64 <<< (57 - 3 * j)).toNat = r.toNat <<< (57 - 3 * j) := by
      rw [BitVec.toNat_shiftLeft, BitVec.toNat_setWidth, Nat.mod_eq_of_lt (a := r.toNat) (by omega),
        Nat.shiftLeft_eq, Nat.mod_eq_of_lt (by omega)]
    have hz : (packCodes j (r :: rs)).toNat = codesNumber j (r :: rs) := by
      rw [packCodes, BitVec.toNat_or, hsh, h1, ← Nat.shiftLeft_add_eq_or_of_lt h2, Nat.shiftLeft_eq]
      rfl
    refine ⟨hz, ?_⟩
    rw [codesNumber]
    omega

/-! ### Decode steps -/

/-- A reconstructed sample survives its 16-bit form. -/
theorem reconstruct_toInt (v : LmsState) (dq : Int) :
    (wrap16 (reconstruct v dq)).toInt = reconstruct v dq := wrap16_clamp16 _

@[simp] theorem decodeSamples_length (sfq : Sfq) (codes : List Code) (v : LmsState) :
    (decodeSamples sfq codes v).length = codes.length := by
  induction codes generalizing v with
  | nil => rfl
  | cons r rs ih => simp [decodeSamples, ih]

/-- Each opcode's result beats are as many as the opcode map says. -/
theorem resultBeats_length (i : Instr) (v : LmsState) :
    (resultBeats i v).length = resultCount (opNumber i) := by
  cases i <;> simp [resultBeats, resultCount, opNumber, beatsOfSnapshot, encodeResults, beatsOfSlice]

theorem encodeResults_eq (t : Trial) : encodeResults t = [BitVec.ofNat 32 ((pack t.sfq t.codes).toNat / 2 ^ 32),
    BitVec.ofNat 32 (pack t.sfq t.codes).toNat, BitVec.ofNat 32 t.err] := by
  rw [encodeResults, beatsOfSlice_eq]
  rfl

/-! ### The search -/

theorem stepError_le (v : LmsState) (sfq : Sfq) (x : S16) (r : Code) : stepError v sfq x r ≤ 65535 := by
  have h1 := toInt_range x
  have h2 := clamp16_range (predict v + deq sfq r)
  simp only [stepError, absDiff, reconstruct]
  omega

@[simp] theorem fullTrial_sfq (xs : List S16) (t : Trial) : (fullTrial xs t).sfq = t.sfq := by
  induction xs generalizing t with
  | nil => rfl
  | cons x xs ih => rw [fullTrial, ih]

/-- A running error never falls. -/
theorem err_le_fullTrial (xs : List S16) (t : Trial) : t.err ≤ (fullTrial xs t).err := by
  induction xs generalizing t with
  | nil => exact le_rfl
  | cons x xs ih =>
    rw [fullTrial]
    exact le_trans (Nat.le_add_right _ _) (ih ⟨_, _, _, t.err + _⟩)

/-- A candidate runs to the end, or is pruned and could not have won. -/
theorem runCandidate_cases (best : Option Nat) (xs : List S16) (t : Trial) :
    runCandidate best xs t = some (fullTrial xs t) ∨
    (runCandidate best xs t = none ∧ reached best (fullTrial xs t).err = true) := by
  induction xs generalizing t with
  | nil => exact .inl rfl
  | cons x xs ih =>
    rw [runCandidate, fullTrial]
    split
    · rename_i hr
      refine .inr ⟨rfl, ?_⟩
      have := err_le_fullTrial xs ⟨t.sfq, t.codes ++ [chooseCode t.slot t.sfq x],
        stepSlot t.slot t.sfq (chooseCode t.slot t.sfq x),
        t.err + stepError t.slot t.sfq x (chooseCode t.slot t.sfq x)⟩
      simp only at this
      cases best with
      | none => simp [reached] at hr
      | some b =>
        simp [reached] at hr ⊢
        omega
    · exact ih _

/-- The first candidate always finishes. -/
theorem selectStep_none (v : LmsState) (xs : List S16) (sfq : Sfq) :
    selectStep v xs none sfq = some (fullTrial xs (freshTrial v sfq)) := by
  rcases runCandidate_cases none xs (freshTrial v sfq) with h | ⟨_, h⟩
  · simp [selectStep, h, reached]
  · simp [reached] at h

theorem mem_candidates (sfq : Sfq) : sfq ∈ candidates := by
  revert sfq
  decide

end Sys2Proof.Machine
end

