-- ==== Sys2Proof/Tests/Slice0.lean ====
section
/-! SUPPORT. The author's tests: one step on small states, expected results from the spec's own encodings
(30_encoding.md R61 to R72) and vectors (95_test_vectors.md); and, for each statement with hypotheses, a state and
operands that meet them. -/

namespace Sys2Proof.Tests

open Sys2Proof.Machine Sys2Proof.Safety

/-! ## Helpers -/

/-- A block whose parser holds the given beats, no response pending, the host's levels the default ones. -/
def collected (beats : List Beat) (s : State) : State := { s with parser := collectBeats beats }

/-- A block of four slots in the reset state, but for slot 0. -/
def withSlot0 (v : LmsState) : State := { State.reset with bank := State.reset.bank.set 0 v }

/-- The response words in the state a step answers. -/
def answer : Result → List Beat
  | .next t => t.rspQueue
  | .fault _ => []
  | .refused _ => []

/-- A slot in the state a step answers. -/
def slotAfter (c : Channel) : Result → Option LmsState
  | .next t => t.slot c
  | .fault _ => none
  | .refused _ => none

/-- The bank in the state a step answers. -/
def bankAfter : Result → List LmsState
  | .next t => t.bank
  | .fault _ => []
  | .refused _ => []

/-! ## Well-formedness -/

theorem test_wellFormed_refuses_32_samples : (Instr.sliceEncode 0 (List.replicate 32 0)).wellFormed = false := by
  decide

theorem test_wellFormed_accepts_31_samples : (Instr.sliceEncode 0 (List.replicate 31 0)).wellFormed = true := by
  decide

/-! ## Decoding: each word written out field by field, `OP CH SFQ 0 CODE 000 CNT` (30_encoding.md R61, R72) -/

theorem test_decode_nop : decode [0b00000000000000000000000000000000#32] = .command .nop [] := by decide

theorem test_decode_lmsInit : decode [0b00000001000000010000000000000000#32] = .command (.lmsInit 1) [] := by decide

theorem test_decode_lmsLoad : decode [0b00000010000000000000000000000000#32, 0x80007FFF, 0xFFFF0000, 0x80008000,
      0x7FFF0001]
    = .command (.lmsLoad 0 ⟨⟨-32768, 32767, -1, 0⟩, ⟨-32768, -32768, 32767, 1⟩⟩) [] := by decide

theorem test_decode_lmsStore : decode [0b00000011000000110000000000000000#32] = .command (.lmsStore 3) [] := by decide

theorem test_decode_lmsPredict : decode [0b00000100111111110000000000000000#32] = .command (.lmsPredict 255) [] := by
  decide

theorem test_decode_lmsUpdate : decode [0b00000101000000000000000000000000#32, 0xFFFFFFEF, 0x0000FED4]
    = .command (.lmsUpdate 0 (-17) (-300)) [] := by decide

theorem test_decode_sfLookup : decode [0b00001000000000001111000000000000#32] = .command (.sfLookup 15) [] := by decide

theorem test_decode_dequant : decode [0b00001001000000000111010100000000#32] = .command (.dequant 7 5) [] := by decide

theorem test_decode_quantize : decode [0b00001010000000000001000000000000#32, 0x00000019]
    = .command (.quantize 1 25) [] := by decide

theorem test_decode_sliceDecode : decode [0b00010000000000000000000000000000#32, 0x12345678, 0x9ABCDEF0]
    = .command (.sliceDecode 0 0x123456789ABCDEF0) [] := by decide

theorem test_decode_sliceEncode : decode [0b00010001000000100000000000000010#32, 0x00000064, 0x0000FF9C, 0x00000007]
    = .command (.sliceEncode 2 [100, -100]) [0x00000007] := by decide

/-- 20_memory.md R45: bits `[31:16]` of a sample beat are ignored. -/
theorem test_decode_ignores_sample_high_half : decode [0x11000001, 0xABCD8000]
    = .command (.sliceEncode 0 [-32768]) [] := by decide

/-- 30_encoding.md R65: the reserved opcodes next to the defined ones. -/
theorem test_decode_reserved_opcodes : ∀ op ∈ [0x06, 0x07, 0x0B, 0x0F, 0x12, 0xFF],
    decode [BitVec.ofNat 32 (op * 2 ^ 24)] = .rejected .reservedOpcode := by decide

/-- 30_encoding.md R61, R62: one reserved bit each of NOP, LMS_INIT (`SFQ`, `CODE`, `CNT`), SF_LOOKUP (`CH`),
DEQUANT (bit 11, `CNT`). -/
theorem test_decode_reserved_bits : ([0x00010000, 0x01001000, 0x01000100, 0x01000001, 0x08010000, 0x09000800,
      0x09000001] : List Beat).map (fun hdr => decode [hdr]) = List.replicate 7 (.rejected .reservedBits) := by
  decide

theorem test_decode_waits : decode [0x02000000, 0, 0, 0] = .rejected .incomplete ∧ decode [] = .rejected .incomplete := by
  decide

theorem test_decodeTableWord : decodeTableWord 32 0x09007500 = some (.dequant 7 5) ∧
    decodeTableWord 64 0x000000190A001000 = some (.quantize 1 25) ∧
    decodeTableWord 32 0x11000002 = some (.sliceEncode 0 [0, 0]) ∧ decodeTableWord 32 0x06000000 = none := by decide

/-! ## One step per command (95_test_vectors.md) -/

/-- V-F-ERR-1. -/
theorem test_nop : answer (step (collected [0x00000000] State.reset)) = [0x00000000] := by decide

/-- V-F-LMS-3, R103: LMS_INIT after any state. -/
theorem test_lmsInit : slotAfter 0 (step (collected [0x01000000] (withSlot0 ⟨⟨9, 8, 7, 6⟩, ⟨5, 4, 3, 2⟩⟩)))
    = some ⟨⟨0, 0, 0, 0⟩, ⟨0, 0, -1, 2⟩⟩ := by decide

/-- V-F-LMS-3. -/
theorem test_lmsLoad : slotAfter 0 (step (collected [0x02000000, 0x80007FFF, 0xFFFF0000, 0x80008000, 0x7FFF0001]
      State.reset)) = some ⟨⟨-32768, 32767, -1, 0⟩, ⟨-32768, -32768, 32767, 1⟩⟩ := by decide

/-- V-F-LMS-3. -/
theorem test_lmsStore : answer (step (collected [0x03000000]
      (withSlot0 ⟨⟨-32768, 32767, -1, 0⟩, ⟨-32768, -32768, 32767, 1⟩⟩)))
    = [0x03000000, 0x80007FFF, 0xFFFF0000, 0x80008000, 0x7FFF0001] := by decide

/-- V-F-LMS-3: slot 3 after reset. -/
theorem test_lmsStore_reset : answer (step (collected [0x03030000] State.reset))
    = [0x03030000, 0, 0, 0, 0xFFFF0002] := by decide

/-- V-F-LMS-1: the largest sum, which a 32-bit accumulator would wrap. -/
theorem test_lmsPredict_max : answer (step (collected [0x04000000]
      (withSlot0 ⟨⟨-32768, -32768, -32768, -32768⟩, ⟨-32768, -32768, -32768, -32768⟩⟩)))
    = [0x04000000, 0x00080000] := by decide

/-- V-F-LMS-1: rounding toward minus infinity. -/
theorem test_lmsPredict_floor : answer (step (collected [0x04000000] (withSlot0 ⟨⟨-8193, 0, 0, 0⟩, ⟨1, 0, 0, 0⟩⟩)))
    = [0x04000000, 0xFFFFFFFE] := by decide

/-- V-F-LMS-5: a zero history entry subtracts, and weights wrap. -/
theorem test_lmsUpdate_zero_and_wrap : slotAfter 0 (step (collected [0x05000000, 0x00000010, 0x0000002A]
      (withSlot0 ⟨⟨-5, 0, 7, -1⟩, ⟨32767, -32768, 100, -100⟩⟩)))
    = some ⟨⟨0, 7, -1, 42⟩, ⟨-32768, 32767, 99, -99⟩⟩ := by decide

/-- V-F-LMS-2: `delta` clamps at the low end. -/
theorem test_lmsUpdate_clamp : slotAfter 0 (step (collected [0x05000000, 0x80000000, 0x0000002A]
      (withSlot0 ⟨⟨-5, 0, 7, -1⟩, ⟨32767, -32768, 100, -100⟩⟩)))
    = some ⟨⟨0, 7, -1, 42⟩, ⟨-1, 0, -32668, 32668⟩⟩ := by decide

/-- V-F-TAB-1. -/
theorem test_sfLookup : answer (step (collected [0x0800E000] State.reset)) = [0x08000000, 0x000006B3] := by decide

/-- V-F-TAB-2. -/
theorem test_dequant : answer (step (collected [0x09007500] State.reset)) = [0x09000000, 0xFFFFFAA8] := by decide

/-- V-F-QNT-1: a negative midpoint takes the lower code. -/
theorem test_quantize_tie : answer (step (collected [0x0A001000, 0xFFFFFFE7] State.reset))
    = [0x0A000000, 0x00000003, 0xFFFFFFEE] := by decide +kernel

/-- V-F-QNT-1: a distance that does not wrap. -/
theorem test_quantize_min : answer (step (collected [0x0A000000, 0x80000000] State.reset))
    = [0x0A000000, 0x00000007, 0xFFFFFFF9] := by decide +kernel

/-- V-F-SLICE-3: twenty samples 5. -/
theorem test_sliceDecode : answer (step (collected [0x10000000, 0x10000000, 0x00000000] State.reset))
    = 0x10000000 :: List.replicate 20 0x00000005 := by decide

/-- V-F-SLICE-4: negative residuals of the largest size. -/
theorem test_sliceDecode_slot : slotAfter 0 (step (collected [0x10000000, 0xFFFFFFFF, 0xFFFFFFFF] State.reset))
    = some ⟨⟨-2115, -1931, -1815, -1829⟩, ⟨-10752, -12544, -14337, -16126⟩⟩ := by decide +kernel

/-- V-F-ENC-9: the second prediction rounds down. -/
theorem test_sliceEncode : answer (step (collected [0x11000002, 0x0000FFFD, 0x00000003] State.reset))
    = [0x11000000, 0x06800000, 0x00000000, 0x00000001] := by decide +kernel

/-- V-F-ENC-10: the winner's slot is committed, and later candidates are pruned at an equal error. -/
theorem test_sliceEncode_commits : slotAfter 0 (step (collected [0x11000002, 0x00007FFF, 0x00007FFF]
      (withSlot0 ⟨⟨30000, 30000, 30000, 30000⟩, ⟨0, 0, 0, 8192⟩⟩)))
    = some ⟨⟨30000, 30000, 32767, 32767⟩, ⟨-368, -368, -368, 7824⟩⟩ := by decide +kernel

/-! ## Errors (95_test_vectors.md section 2.5) -/

/-- V-F-ERR-2 to V-F-ERR-18: header, number of payload beats (zeros), status beat. -/
def errorVectors : List (Beat × Nat × Beat) :=
  [(0x00010000, 0, 0x00010002), (0x06000000, 0, 0x06000001), (0xFF123456, 0, 0xFF120001),
   (0x01001000, 0, 0x01000002), (0x01040000, 0, 0x01040003), (0x04FF0000, 0, 0x04FF0003),
   (0x02040000, 4, 0x02040003), (0x05000080, 2, 0x05000002), (0x08010000, 0, 0x08010002)] ++
  [(0x09000800, 0, 0x09000002), (0x0A001001, 1, 0x0A000002), (0x10000001, 2, 0x10000002),
   (0x11000015, 21, 0x11000004), (0x110000F5, 21, 0x11000002), (0x11050015, 21, 0x11050003),
   (0x1100001F, 31, 0x11000004)]

theorem test_errors : ∀ e ∈ errorVectors,
    answer (step (collected (e.1 :: List.replicate e.2.1 0) State.reset)) = [e.2.2] ∧
    bankAfter (step (collected (e.1 :: List.replicate e.2.1 0) State.reset)) = State.reset.bank ∧
    payloadLen e.1 = e.2.1 := by decide

/-! ## The step, the ports and reset -/

theorem test_withFetchWord : answer (step (State.reset.withFetchWord 32 0x0800F000)) = [0x08000000, 0x00000800] ∧
    answer (step (State.reset.withFetchWord 32 0x11000001)) = [0x11000000, 0, 0, 1] := by decide +kernel

theorem test_reset_inv : BlockInv State.reset := by decide

/-- 70_reset_and_hazards.md R180: reset in the middle of a command and of a response. -/
theorem test_rst : answer (step { collected [0x11000002, 0x00000001] (withSlot0 ⟨⟨1, 2, 3, 4⟩, ⟨5, 6, 7, 8⟩⟩) with
      rspQueue := [1, 2], edges := [⟨true, true, true⟩] }) = [] ∧
    bankAfter (step { collected [0x11000002, 0x00000001] (withSlot0 ⟨⟨1, 2, 3, 4⟩, ⟨5, 6, 7, 8⟩⟩) with
      rspQueue := [1, 2], edges := [⟨true, true, true⟩] }) = State.reset.bank := by decide

/-- 20_memory.md R41: a beat offered while `rsp_ready` is low stays. -/
theorem test_backpressure : answer (step { State.reset with rspQueue := [7, 8], edges := [⟨false, false, false⟩] }) = [7, 8] ∧
    answer (step { State.reset with rspQueue := [7, 8], edges := [⟨false, false, true⟩] }) = [8] := by decide

/-! ## Arithmetic at its boundaries (00_scope.md R10; 40_tables_quant.md R83, R84) -/

theorem test_asr : asr (-1) 4 = -1 ∧ asr (-16) 4 = -1 ∧ asr (-17) 4 = -2 ∧ asr 15 4 = 0 ∧ asr (-8193) 13 = -2 := by decide

theorem test_clamp16 : clamp16 (-32769) = -32768 ∧ clamp16 (-32768) = -32768 ∧ clamp16 32767 = 32767 ∧
    clamp16 32768 = 32767 := by decide

theorem test_wrap16 : wrap16 32768 = -32768 ∧ wrap16 (-32769) = 32767 ∧ wrap16 65536 = 0 := by decide

theorem test_rhaz : rhaz 5 2 = 3 ∧ rhaz (-5) 2 = -3 ∧ rhaz 7 4 = 2 ∧ rhaz (-7) 4 = -2 ∧ rhaz 5 4 = 1 := by decide

/-- R84's comparators at and around each midpoint of the row 1, 3, 5, 7. -/
theorem test_quantizer_midpoints :
    ([0, 2, 3, 4, 5, 6, 7, -1, -2, -3, -4, -5, -6, -7] : List Int).map (fun e => (quant 0 e).1)
      = [0, 0, 2, 2, 4, 4, 6, 1, 1, 3, 3, 5, 5, 7] := by decide +kernel

/-- V-L1-4; the first and the last code position of R120. -/
theorem test_slice_word : pack 7 [5, 2] = 0x7A80000000000000 ∧ unpackSfq 0x7A80000000000000 = 7 ∧
    unpackCode 0x7A80000000000000 0 = 5 ∧ unpackCode 0x0000000000000006 19 = 6 := by decide

/-! ## Witnesses: for each statement with hypotheses, values that meet them all; where it has several clauses,
values for each clause, at its boundaries -/

/-- A slot with no zero in it. -/
def someSlot : LmsState := ⟨⟨-5, 0, 7, -1⟩, ⟨32767, -32768, 100, -100⟩⟩

theorem witness_DecodeInvertsEncode : (Instr.sliceEncode 255 (List.replicate 31 (-1))).wellFormed = true := by decide

theorem witness_DecodedHeaderIsItsEncoding :
    decode [0x11050001, 0xABCD8000, 7] = .command (.sliceEncode 5 [-32768]) [7] := by decide

/-- Reserved opcodes on both sides of each defined range; a reserved bit; a good header. -/
theorem witness_EveryHeaderIsOneOfThree :
    (∀ op ∈ [0x06, 0x07, 0x0B, 0x0F, 0x12, 0xFF], definedOp (opOf (BitVec.ofNat 32 (op * 2 ^ 24))) = false ∧
      ([] : List Beat).length = payloadLen (BitVec.ofNat 32 (op * 2 ^ 24))) ∧
    (∀ op ∈ [0x00, 0x05, 0x08, 0x0A, 0x10, 0x11], definedOp (opOf (BitVec.ofNat 32 (op * 2 ^ 24 + 2 ^ 11))) = true ∧
      reservedBitSet (BitVec.ofNat 32 (op * 2 ^ 24 + 2 ^ 11)) = true ∧
      (List.replicate (payloadLen (BitVec.ofNat 32 (op * 2 ^ 24 + 2 ^ 11))) (0 : Beat)).length
        = payloadLen (BitVec.ofNat 32 (op * 2 ^ 24 + 2 ^ 11))) ∧
    (∀ op ∈ [0x00, 0x05, 0x08, 0x0A, 0x10, 0x11], definedOp (opOf (BitVec.ofNat 32 (op * 2 ^ 24))) = true ∧
      reservedBitSet (BitVec.ofNat 32 (op * 2 ^ 24)) = false) := by decide

theorem witness_PayloadLengthFromHeader : decode [0x1100001F] = .rejected .incomplete ∧
    decode [0x0A001000, 1, 2] = .command (.quantize 1 1) [2] := by decide

theorem witness_OperandsAreTheirBits :
    (∀ p ∈ [(0x00000000, 0x00), (0x01FF0000, 0x01), (0x02FF0000, 0x02), (0x03FF0000, 0x03), (0x04FF0000, 0x04),
      (0x05FF0000, 0x05)], reservedBitSet (BitVec.ofNat 32 p.1) = false ∧ opOf (BitVec.ofNat 32 p.1) = p.2) ∧
    (∀ p ∈ [(0x0800F000, 0x08), (0x0900F700, 0x09), (0x0A00F000, 0x0A), (0x10FF0000, 0x10), (0x11FF001F, 0x11)],
      reservedBitSet (BitVec.ofNat 32 p.1) = false ∧ opOf (BitVec.ofNat 32 p.1) = p.2) ∧
    (List.replicate 31 (0 : Beat)).length = (0x11FF001F : Beat).toNat % 2 ^ 5 := by decide

theorem witness_StepRunsDecodedCommand : CommandReady (collected [0x05000000, 1, 2] State.reset) 0x05000000 [1, 2] ∧
    decode [0x05000000, 1, 2] = .command (.lmsUpdate 0 1 2) [] := ⟨⟨rfl, rfl, rfl, rfl⟩, by decide⟩

/-- A ready command for each status code. -/
theorem witness_EveryCommandGetsOneResponse :
    (CommandReady (collected [0x03030000] State.reset) 0x03030000 [] ∧ expectedStatus 0x03030000 4 = 0) ∧
    (CommandReady (collected [0x06000000] State.reset) 0x06000000 [] ∧ expectedStatus 0x06000000 4 = 1) ∧
    (CommandReady (collected [0x01001000] State.reset) 0x01001000 [] ∧ expectedStatus 0x01001000 4 = 2) ∧
    (CommandReady (collected [0x01040000] State.reset) 0x01040000 [] ∧ expectedStatus 0x01040000 4 = 3) ∧
    (CommandReady (collected (0x11030015 :: List.replicate 21 0) State.reset) 0x11030015 (List.replicate 21 0) ∧
      expectedStatus 0x11030015 4 = 4) :=
  ⟨⟨⟨rfl, rfl, rfl, rfl⟩, by decide⟩, ⟨⟨rfl, rfl, rfl, rfl⟩, by decide⟩, ⟨⟨rfl, rfl, rfl, rfl⟩, by decide⟩,
    ⟨⟨rfl, rfl, rfl, rfl⟩, by decide⟩, ⟨⟨rfl, rfl, rfl, rfl⟩, by decide⟩⟩

theorem witness_ErrorSendsStatusAlone : CommandReady (collected [0x02040000, 1, 2, 3, 4] State.reset) 0x02040000
    [1, 2, 3, 4] ∧ expectedStatus 0x02040000 (collected [0x02040000, 1, 2, 3, 4] State.reset).nch ≠ 0 :=
  ⟨⟨rfl, rfl, rfl, rfl⟩, by decide⟩

/-- The longest response, and a step from that state. -/
theorem witness_StepKeepsInvariant :
    ∃ s t : State, s.rspQueue.length = 21 ∧ BlockInv s ∧ step s = .next t :=
  ⟨{ State.reset with rspQueue := List.replicate 21 7 }, _, rfl, by decide, rfl⟩

theorem witness_ResetMeetsInvariant : (1 ≤ 1 ∧ 1 ≤ 255) ∧ (1 ≤ 255 ∧ 255 ≤ 255) := by decide

theorem witness_StepKeepsSlotCount : ∃ t, step (collected [0x01000000] State.reset) = .next t := ⟨_, rfl⟩

theorem witness_ResetStateValues : 0 < 1 ∧ 254 < 255 := by decide

/-- Reset in the middle of a command, with the ready pin high after it. -/
theorem witness_RstEdgeResetsTheBlock :
    ∃ s t : State, s.hostEdge.rst = true ∧ step s = .next t ∧ t.hostEdge.rst = false ∧ t.cmdReady = true :=
  ⟨{ collected [0x10000000, 1] State.reset with edges := [⟨true, true, true⟩] }, _, rfl, rfl, rfl, rfl⟩

/-- A step that answers a command, and one that waits. -/
theorem witness_ResponseStreamIsLossless :
    (∃ t, (collected [0x00000000] State.reset).hostEdge.rst = false ∧
      step (collected [0x00000000] State.reset) = .next t) ∧
    ∃ s t : State, s.hostEdge.rst = false ∧ step s = .next t ∧ Waiting s ∧ s.rspQueue = [1, 2] :=
  ⟨⟨_, rfl, rfl⟩, { State.reset with rspQueue := [1, 2] }, _, rfl, rfl, .inl (by decide), rfl⟩

/-- Each way to wait (a response pending, no header, the last payload beat missing), and each case of the handshake:
both pins high, the host not offering, the block not ready, nothing to send. -/
theorem witness_CommandStreamIsLossless :
    (∃ s t : State, s.hostEdge.rst = false ∧ Waiting s ∧ step s = .next t ∧ s.hostEdge.cmdValid = true ∧
      s.cmdReady = true ∧ s.cmdStream = [5, 6] ∧ s.parser = .idle) ∧
    (∃ s t : State, s.hostEdge.rst = false ∧ Waiting s ∧ step s = .next t ∧ s.hostEdge.cmdValid = true ∧
      s.cmdReady = true ∧ s.cmdStream = [5] ∧ s.parser = .collect 0x10000000 [1]) ∧
    (∃ s t : State, s.hostEdge.rst = false ∧ Waiting s ∧ step s = .next t ∧ s.hostEdge.cmdValid = false ∧
      s.rspQueue = [] ∧ s.cmdStream = [5, 6]) ∧
    (∃ s t : State, s.hostEdge.rst = false ∧ Waiting s ∧ step s = .next t ∧ s.cmdReady = false ∧
      s.rspQueue = [1] ∧ s.cmdStream = [5, 6]) ∧
    ∃ s t : State, s.hostEdge.rst = false ∧ Waiting s ∧ step s = .next t ∧ s.hostEdge.cmdValid = true ∧
      s.cmdReady = true ∧ s.cmdStream = [] :=
  ⟨⟨{ State.reset with cmdStream := [5, 6] }, _, rfl, .inr (.inl rfl), rfl, rfl, rfl, rfl, rfl⟩,
    ⟨{ State.reset with parser := .collect 0x10000000 [1], cmdStream := [5] }, _, rfl,
      .inr (.inr ⟨0x10000000, [1], rfl, by decide⟩), rfl, rfl, rfl, rfl, rfl⟩,
    ⟨{ State.reset with cmdStream := [5, 6], edges := [⟨false, false, true⟩] }, _, rfl, .inr (.inl rfl), rfl, rfl,
      rfl, rfl⟩,
    ⟨{ collected [0x00000000] State.reset with rspQueue := [1], cmdStream := [5, 6], edges := [⟨false, true, true⟩] }, _,
      rfl, .inl (by decide), rfl, rfl, rfl, rfl⟩,
    ⟨State.reset, _, rfl, .inr (.inl rfl), rfl, rfl, rfl, rfl⟩⟩

/-- The host ready, and the host not ready. -/
theorem witness_ResponseBeatHoldsUntilTaken :
    (∃ s t : State, s.hostEdge.rst = false ∧ s.rspQueue = [1, 2] ∧ step s = .next t ∧ s.hostEdge.rspReady = true) ∧
    ∃ s t : State, s.hostEdge.rst = false ∧ s.rspQueue = [1, 2] ∧ step s = .next t ∧ s.hostEdge.rspReady = false :=
  ⟨⟨{ State.reset with rspQueue := [1, 2] }, _, rfl, rfl, rfl, rfl⟩,
    ⟨{ State.reset with rspQueue := [1, 2], edges := [⟨false, true, false⟩] }, _, rfl, rfl, rfl, rfl⟩⟩

theorem witness_BankStillWhileWaiting :
    ∃ s t : State, s.hostEdge.rst = false ∧ Waiting s ∧ step s = .next t ∧ s.parser = .collect 0x02000000 [1, 2, 3] :=
  ⟨{ withSlot0 someSlot with parser := .collect 0x02000000 [1, 2, 3] }, _, rfl,
    .inr (.inr ⟨0x02000000, [1, 2, 3], rfl, by decide⟩), rfl, rfl⟩

/-- A header, and the last payload beat. -/
theorem witness_OfferedBeatIsCollected :
    (∃ s : State, s.hostEdge.rst = false ∧ s.hostEdge.cmdValid = true ∧ s.rspQueue = [] ∧ s.cmdStream = [5, 6] ∧
      s.parser = .idle) ∧
    ∃ s : State, s.hostEdge.rst = false ∧ s.hostEdge.cmdValid = true ∧ s.rspQueue = [] ∧ s.cmdStream = [6] ∧
      s.parser = .collect 0x02000000 [1, 2, 3] ∧ [1, 2, 3].length < payloadLen 0x02000000 :=
  ⟨⟨{ State.reset with cmdStream := [5, 6] }, rfl, rfl, rfl, rfl, rfl⟩,
    ⟨{ State.reset with cmdStream := [6], parser := .collect 0x02000000 [1, 2, 3] }, rfl, rfl, rfl, rfl, rfl,
      by decide⟩⟩

theorem witness_IncompleteCommandWaits :
    ∃ s : State, s.parser = .collect 0x10000000 [0] ∧ [(0 : Beat)].length < payloadLen 0x10000000 ∧
      s.cmdStream = [] ∧ s.rspQueue = [] ∧ (∀ e ∈ s.edges, e.rst = false) ∧ s.edges ≠ [] :=
  ⟨{ State.reset with parser := .collect 0x10000000 [0], edges := [⟨false, true, true⟩] }, rfl, by decide, rfl, rfl,
    by decide, by decide⟩

theorem witness_StreamedCommandExecutes :
    ∃ s : State, (Instr.lmsUpdate 0 (-17) (-300)).wellFormed = true ∧ s.edges = [] ∧ s.parser = .idle ∧
      s.rspQueue = [] ∧ s.cmdStream = encode (.lmsUpdate 0 (-17) (-300)) ++ [0] :=
  ⟨{ State.reset with cmdStream := encode (.lmsUpdate 0 (-17) (-300)) ++ [0] }, rfl, rfl, rfl, rfl, rfl⟩

theorem witness_ResponseDrains : ∃ s : State, s.edges = [] ∧ s.rspQueue = [1, 2] :=
  ⟨{ State.reset with rspQueue := [1, 2] }, rfl, rfl⟩

/-- V-F-ERR-19. -/
theorem witness_BeatAfterReservedOpcodeIsHeader :
    ∃ s : State, definedOp (opOf 0x06000000) = false ∧ s.edges = [] ∧ s.parser = .idle ∧ s.rspQueue = [] ∧
      s.cmdStream = [0x06000000, 0x01000000] :=
  ⟨{ State.reset with cmdStream := [0x06000000, 0x01000000] }, by decide, rfl, rfl, rfl, rfl⟩

/-- A tie and a non-tie of the rounded division; both orders of the distance. -/
theorem witness_NamedFunctions : (0 < 2 ∧ 2 * (5 - 2 * rhaz 5 2).natAbs = 2) ∧
    (0 < 4 ∧ 2 * (5 - 4 * rhaz 5 4).natAbs < 4) ∧ ((-32768 : Int) ≤ 32767 ∧ (3 : Int) ≤ 3) := by decide

/-- A tie of the table, and an even code. -/
theorem witness_DequantTableIsRoundedProduct :
    2 * (scaleFactor 1 * shapeQuarters 2 - 4 * deq 1 2).natAbs = 4 ∧ (2 : Code).toNat % 2 = 0 := by decide

/-- A slot that is there, for the statements on one slot: the last slot. -/
theorem witness_LmsInitSetsInitialState : (3 : Channel).toNat < State.reset.nch := by decide

theorem witness_LmsLoadSetsSnapshot : (3 : Channel).toNat < (withSlot0 someSlot).nch := by decide

theorem witness_LmsStoreSendsSnapshot : (withSlot0 someSlot).slot 0 = some someSlot := by decide

theorem witness_LmsPredictSendsPrediction : State.reset.slot 3 = some ⟨⟨0, 0, 0, 0⟩, ⟨0, 0, -1, 2⟩⟩ := by decide

theorem witness_LmsUpdateAppliesUpdate : (withSlot0 someSlot).slot 0 = some someSlot := by decide

/-- Both clauses of the rule for one weight, the second at a history entry of zero. -/
theorem witness_UpdateFollowsItsRule : someSlot.h.t0.toInt < 0 ∧ 0 ≤ someSlot.h.t1.toInt ∧ someSlot.h.t1.toInt = 0 := by
  decide

/-- The first and the last code; the most codes. -/
theorem witness_SliceWordLayout : 0 < 20 ∧ 19 < 20 ∧ (List.replicate 20 (7 : Code)).length ≤ 20 := by decide

theorem witness_SliceDecodeRunsTwentySteps : (withSlot0 someSlot).slot 0 = some someSlot := by decide

theorem witness_SliceEncodeCommitsTheWinner : (withSlot0 someSlot).slot 0 = some someSlot ∧
    (List.replicate 20 (32767 : S16)).length ≤ 20 := by decide

theorem witness_EmptySliceIsZero : (3 : Channel).toNat < (withSlot0 someSlot).nch := by decide

theorem witness_DatapathRanges : (List.replicate 20 (-32768 : S16)).length ≤ 20 := by decide

theorem witness_DecodeRetracesEncode : (withSlot0 someSlot).slot 0 = some someSlot ∧
    ({ State.reset with bank := State.reset.bank.set 1 someSlot } : State).slot 1 = some someSlot ∧
    (List.replicate 20 (100 : S16)).length = 20 := by decide

theorem witness_ShortSliceSharesItsPrefix : ([1000, -1000, 1000, -1000, 1000] : List S16).length ≤ 20 := by decide

/-- NOP itself, and a header with its opcode and a reserved bit. -/
theorem witness_NopReportsCompletion : opOf 0x00000000 = 0x00 ∧ opOf 0x00010000 = 0x00 := by decide

/-- The first missing slot, and the last. -/
theorem witness_MissingSlotIsErrChannel :
    (slotOf (.lmsStore 4) = some 4 ∧ State.reset.nch ≤ (4 : Channel).toNat) ∧
    slotOf (.lmsStore 255) = some 255 ∧ State.reset.nch ≤ (255 : Channel).toNat := by decide

theorem witness_TooManySamplesIsErrCount : (3 : Channel).toNat < State.reset.nch ∧
    20 < (List.replicate 21 (0 : S16)).length := by decide

/-- A command that writes its slot, and one that does not. -/
theorem witness_CommandsChangeOnlyTheirSlot :
    (∃ t, exec (.lmsInit 0) (withSlot0 someSlot) = .next t ∧ slotOf (.lmsInit 0) = some 0 ∧
      (0 : Channel).toNat ≠ 1) ∧
    ∃ t, exec (.lmsStore 0) (withSlot0 someSlot) = .next t ∧ writesSlot (.lmsStore 0) = false :=
  ⟨⟨_, rfl, rfl, by decide⟩, _, rfl, rfl⟩

/-- Two states that differ in another slot. -/
theorem witness_SlotsAreIndependent :
    ∃ s' t', (withSlot0 someSlot).nch = State.reset.nch ∧ (withSlot0 someSlot).slot 1 = State.reset.slot 1 ∧
      exec (.lmsUpdate 1 16 7) (withSlot0 someSlot) = .next s' ∧ exec (.lmsUpdate 1 16 7) State.reset = .next t' :=
  ⟨_, _, by decide, by decide, rfl, rfl⟩

theorem witness_ReadingCommandsRepeat :
    ∃ t, writesSlot (.lmsPredict 0) = false ∧ exec (.lmsPredict 0) (withSlot0 someSlot) = .next t := ⟨_, rfl, rfl⟩

theorem witness_InitAndLoadAreIdempotent :
    (∃ t u, exec (.lmsInit 0) (withSlot0 someSlot) = .next t ∧ exec (.lmsInit 0) t = .next u) ∧
    ∃ t u, exec (.lmsLoad 0 someSlot) State.reset = .next t ∧ exec (.lmsLoad 0 someSlot) t = .next u :=
  ⟨⟨_, _, rfl, rfl⟩, _, _, rfl, rfl⟩

theorem witness_StoreThenLoadRestores : (withSlot0 someSlot).slot 0 = some someSlot ∧
    (0 : Channel).toNat < State.reset.nch := by decide

end Sys2Proof.Tests
end

/-! SUPPORT. Proofs of the statements of 00_scope.md: the block's invariant (R6; 10_state.md R29; 20_memory.md R46)
and the named functions on integers (R10). -/

namespace Sys2Proof.Machine

open Sys2Proof.Safety

/-! ### Reset -/

@[simp] theorem State.resetWith_nch (n : Nat) : (State.resetWith n).nch = n := List.length_replicate

theorem blockInv_resetWith {n : Nat} (h1 : 1 ≤ n) (h255 : n ≤ 255) : BlockInv (State.resetWith n) := by
  refine ⟨?_, ?_, rfl, Nat.zero_le 21⟩
  · simpa using h1
  · simpa using h255

/-- Settles O12: the number of slots of the reset state is the given one, its parser is idle and its queue empty. -/
theorem resetMeetsInvariant : Obligations.ResetMeetsInvariant :=
  ⟨fun _ => blockInv_resetWith, blockInv_resetWith (n := Config.resetNch) (by decide) (by decide)⟩

/-! ### The number of slots -/

@[simp] theorem State.movePorts_nch (s : State) : s.movePorts.nch = s.nch := by
  obtain ⟨_, _, _, _, e, _⟩ := s.movePorts_cases
  rw [e]
  rfl

theorem runCollected_nch {s t : State} (h : runCollected s = .next t) : t.nch = s.nch := by
  obtain ⟨u, hu, _, _, _, _, hn, _⟩ := runCollected_next s
  cases hu.symm.trans h
  exact hn

theorem step_nch {s t : State} (h : step s = .next t) : t.nch = s.nch := by
  rcases step_cases s with ⟨_, e⟩ | ⟨_, _, e⟩ | ⟨_, _, e⟩
  · cases e.symm.trans h
    simp
  · simpa using runCollected_nch (e.symm.trans h)
  · cases e.symm.trans h
    simp

/-- Settles O13: reset maps the bank, a command at most sets one of its places, and the ports do not touch it. -/
theorem stepKeepsSlotCount : Obligations.StepKeepsSlotCount := fun _ _ => step_nch

/-! ### The parser -/

/-- A beat reaches the parser only while a payload beat is missing, so the parser never overfills. -/
theorem State.movePorts_parserFits {s : State} (hs : parserFits s.parser = true) :
    parserFits s.movePorts.parser = true := by
  obtain ⟨_, _, _, _, e, _, ⟨hp, _⟩ | ⟨b, _, hp, hr, _⟩⟩ := s.movePorts_cases
  · simpa [e, hp] using hs
  · simpa [e, hp] using parserFits_push b hr

theorem runCollected_parserFits {s t : State} (hs : parserFits s.parser = true)
    (h : runCollected s = .next t) : parserFits t.parser = true := by
  obtain ⟨u, hu, _, _, _, _, _, ⟨hidle, _⟩ | hsame⟩ := runCollected_next s
  · cases hu.symm.trans h
    rw [hidle]
    rfl
  · cases hu.symm.trans h
    rwa [hsame]

theorem step_parserFits {s t : State} (hs : parserFits s.parser = true) (h : step s = .next t) :
    parserFits t.parser = true := by
  rcases step_cases s with ⟨_, e⟩ | ⟨_, _, e⟩ | ⟨_, _, e⟩
  · cases e.symm.trans h
    rfl
  · exact runCollected_parserFits (s := s.advance) hs (e.symm.trans h)
  · cases e.symm.trans h
    exact State.movePorts_parserFits hs

/-! ### The response queue -/

/-- SLICE_DECODE has the most result beats (30_encoding.md R63, R67). -/
theorem resultCount_le (op : Nat) : resultCount op ≤ 20 := by
  unfold resultCount
  split <;> decide

theorem resultBeats_length_le (i : Instr) (v : LmsState) : (resultBeats i v).length ≤ 20 :=
  (resultBeats_length i v).trans_le (resultCount_le _)

/-- A command's response is its status beat and at most 20 result beats. -/
theorem exec_rspQueue_length_le {i : Instr} {s t : State} (h : exec i s = .next t) :
    t.rspQueue.length ≤ s.rspQueue.length + 21 := by
  rcases exec_cases i s with ⟨_, _, e⟩ | ⟨c, _, ⟨_, e⟩ | ⟨v, _, ⟨_, e⟩ | ⟨_, e⟩⟩⟩
  · cases (e Config.initLms).symm.trans h
    have := resultBeats_length_le i Config.initLms
    simp
    omega
  · cases e.symm.trans h
    simp
  · cases e.symm.trans h
    simp
  · cases e.symm.trans h
    have := resultBeats_length_le i v
    simp
    omega

theorem runDecoded_rspQueue_length_le {d : Decoded} {hdr : Beat} {s t : State}
    (h : runDecoded d hdr s = .next t) : t.rspQueue.length ≤ s.rspQueue.length + 21 := by
  cases d with
  | command i rest => exact exec_rspQueue_length_le (s := s.endCollect) h
  | rejected why =>
    cases why with
    | incomplete =>
      cases h
      omega
    | reservedOpcode =>
      cases raise_eq_next h
      simp
    | reservedBits =>
      cases raise_eq_next h
      simp

theorem runCollected_rspQueue_length_le {s t : State} (h : runCollected s = .next t) :
    t.rspQueue.length ≤ s.rspQueue.length + 21 := by
  unfold runCollected at h
  split at h
  · cases h
    omega
  · exact runDecoded_rspQueue_length_le h

theorem State.movePorts_rspQueue_length_le (s : State) :
    s.movePorts.rspQueue.length ≤ s.rspQueue.length := by
  obtain ⟨_, _, _, _, e, ⟨hq, _⟩ | ⟨_, hq, _⟩, _⟩ := s.movePorts_cases
  · simp [e, hq]
  · simp [e, hq]

theorem rspQueue_eq_nil_of_canExecute {s : State} (h : s.canExecute = true) : s.rspQueue = [] := by
  simp only [State.canExecute, Bool.and_eq_true, List.isEmpty_iff] at h
  exact h.2

/-- One response at a time: a command executes only on an empty queue (70_reset_and_hazards.md R188), and its own
response has at most 21 beats. -/
theorem step_rspQueue_length_le {s t : State} (hs : s.rspQueue.length ≤ 21) (h : step s = .next t) :
    t.rspQueue.length ≤ 21 := by
  rcases step_cases s with ⟨_, e⟩ | ⟨_, hc, e⟩ | ⟨_, _, e⟩
  · cases e.symm.trans h
    simp
  · simpa [rspQueue_eq_nil_of_canExecute hc] using runCollected_rspQueue_length_le (e.symm.trans h)
  · cases e.symm.trans h
    exact s.movePorts_rspQueue_length_le.trans hs

/-- Settles O11: slot count, parser and queue are each kept by every step. -/
theorem stepKeepsInvariant : Obligations.StepKeepsInvariant := by
  rintro s t ⟨h1, h255, hp, hq⟩ h
  have hn : t.nch = s.nch := step_nch h
  exact ⟨h1.trans_eq hn.symm, hn.trans_le h255, step_parserFits hp h, step_rspQueue_length_le hq h⟩

/-! ### The named functions -/

theorem absDiff_of_le {x y : Int} (h : x ≤ y) : (absDiff x y : Int) = y - x := by
  simp only [absDiff]
  omega

theorem absDiff_of_ge {x y : Int} (h : y ≤ x) : (absDiff x y : Int) = x - y := by
  simp only [absDiff]
  omega

/-- A numerator that is not negative is rounded half up: what is left over is from `-1/2` on and below `1/2`. -/
theorem rhaz_of_nonneg {num : Int} {den : Nat} (hd : 0 < den) (h : 0 ≤ num) :
    -(den : Int) ≤ 2 * (num - den * rhaz num den) ∧ 2 * (num - den * rhaz num den) < den := by
  have hd2 : (0 : Int) < 2 * den := by omega
  have hle := Int.mul_ediv_self_le (x := 2 * num + den) hd2.ne'
  have hlt := Int.lt_mul_ediv_self_add (x := 2 * num + den) hd2
  rw [rhaz, if_pos h]
  constructor
  · linarith
  · linarith

theorem rhaz_of_neg {num : Int} (den : Nat) (h : num < 0) : rhaz num den = -rhaz (-num) den := by
  rw [rhaz, rhaz, if_neg (by omega), if_pos (by omega)]

/-- The rounded quotient is within half of the exact one, and on a tie is the one farther from zero: a negative
numerator mirrors its opposite. -/
theorem rhaz_nearest (num : Int) {den : Nat} (hd : 0 < den) :
    2 * (num - den * rhaz num den).natAbs ≤ den ∧
    (2 * (num - den * rhaz num den).natAbs = den → num.natAbs < (den * rhaz num den).natAbs) := by
  rcases le_or_gt 0 num with h | h
  · have hb := rhaz_of_nonneg hd h
    omega
  · have hb := rhaz_of_nonneg (num := -num) hd (by omega)
    rw [rhaz_of_neg den h, mul_neg]
    omega

/-- Settles O25: the laws of `asr`, `clamp16` and `wrap16` with those of `absDiff` and `rhaz`. -/
theorem namedFunctions : Obligations.NamedFunctions :=
  ⟨floorShift_asr, clamped_clamp16, wrap16_toInt, fun _ _ => ⟨absDiff_of_le, absDiff_of_ge⟩,
    fun num _ => rhaz_nearest num⟩

end Sys2Proof.Machine

/-! SUPPORT. Proofs of the statements of 10_state.md: the reset state (R24, R31), the parser and the collection of
commands (R29), and the slots and what a command leaves unchanged (R20, R23). -/

namespace Sys2Proof

open Sys2Proof.Safety

/-! ### Encoding a command and decoding it -/

theorem length_encodePayload {i : Instr} (h : i.wellFormed = true) :
    (encodePayload i).length = payloadLen (encodeHeader i) := by
  cases i with
  | nop => exact Laws.EncodedLength.nop h
  | lmsInit c => exact Laws.EncodedLength.lmsInit c h
  | lmsLoad c snap => exact Laws.EncodedLength.lmsLoad c snap h
  | lmsStore c => exact Laws.EncodedLength.lmsStore c h
  | lmsPredict c => exact Laws.EncodedLength.lmsPredict c h
  | lmsUpdate c residual sample => exact Laws.EncodedLength.lmsUpdate c residual sample h
  | sfLookup sfq => exact Laws.EncodedLength.sfLookup sfq h
  | dequant sfq r => exact Laws.EncodedLength.dequant sfq r h
  | quantize sfq e => exact Laws.EncodedLength.quantize sfq e h
  | sliceDecode c slice => exact Laws.EncodedLength.sliceDecode c slice h
  | sliceEncode c samples => exact Laws.EncodedLength.sliceEncode c samples h

theorem reservedBitSet_encodeHeader (i : Instr) : reservedBitSet (encodeHeader i) = false := by
  cases i with
  | nop => exact Laws.ReservedBitsZero.nop
  | lmsInit c => exact Laws.ReservedBitsZero.lmsInit c
  | lmsLoad c snap => exact Laws.ReservedBitsZero.lmsLoad c snap
  | lmsStore c => exact Laws.ReservedBitsZero.lmsStore c
  | lmsPredict c => exact Laws.ReservedBitsZero.lmsPredict c
  | lmsUpdate c residual sample => exact Laws.ReservedBitsZero.lmsUpdate c residual sample
  | sfLookup sfq => exact Laws.ReservedBitsZero.sfLookup sfq
  | dequant sfq r => exact Laws.ReservedBitsZero.dequant sfq r
  | quantize sfq e => exact Laws.ReservedBitsZero.quantize sfq e
  | sliceDecode c slice => exact Laws.ReservedBitsZero.sliceDecode c slice
  | sliceEncode c samples => exact Laws.ReservedBitsZero.sliceEncode c samples

/-- The operands read back from a command's own header and payload are the command's (30_encoding.md R64). -/
theorem assemble_encode (i : Instr) : i.opcode.assemble (encodeHeader i) (encodePayload i) = i := by
  cases i with
  | nop => rfl
  | lmsInit c => exact congrArg Instr.lmsInit (hdrCh_makeHeader ..)
  | lmsLoad c snap => exact congrArg₂ Instr.lmsLoad (hdrCh_makeHeader ..) (snapshotOfBeats_pairBeat snap)
  | lmsStore c => exact congrArg Instr.lmsStore (hdrCh_makeHeader ..)
  | lmsPredict c => exact congrArg Instr.lmsPredict (hdrCh_makeHeader ..)
  | lmsUpdate c residual sample =>
    exact congrArg₂ (Instr.lmsUpdate · residual ·) (hdrCh_makeHeader ..) (sampleOfBeat_beatOfSample sample)
  | sfLookup sfq => exact congrArg Instr.sfLookup (hdrSfq_makeHeader ..)
  | dequant sfq r => exact congrArg₂ Instr.dequant (hdrSfq_makeHeader ..) (hdrCode_makeHeader ..)
  | quantize sfq e => exact congrArg (Instr.quantize · e) (hdrSfq_makeHeader ..)
  | sliceDecode c slice => exact congrArg₂ Instr.sliceDecode (hdrCh_makeHeader ..) (sliceOfBeats_extract slice)
  | sliceEncode c samples =>
    have hmap : (samples.map beatOfSample).map sampleOfBeat = samples := by simp [Function.comp_def]
    exact congrArg₂ Instr.sliceEncode (hdrCh_makeHeader ..) hmap

/-- A well-formed command decodes from its own encoding, whatever beats follow it. -/
theorem decode_encode {i : Instr} (rest : List Beat) (h : i.wellFormed = true) :
    decode (encode i ++ rest) = .command i rest :=
  calc decode (encode i ++ rest)
      = decodeWhole (encodeHeader i) (encodePayload i) rest := decode_whole _ _ _ (length_encodePayload h)
    _ = .command (i.opcode.assemble (encodeHeader i) (encodePayload i)) rest :=
        decodeWhole_command _ _ (hdrOp_encodeHeader i) (reservedBitSet_encodeHeader i)
    _ = .command i rest := by rw [assemble_encode]

end Sys2Proof

namespace Sys2Proof.Machine

open Sys2Proof.Safety

/-! ### Reset -/

/-- Settles O14: the bank of the reset state is the initial content, repeated. -/
theorem resetStateValues : Obligations.ResetStateValues :=
  fun n => ⟨State.resetWith_nch n, fun _ hk => List.getElem?_replicate_of_lt hk, rfl, rfl⟩

/-! ### Waiting, and collecting a command -/

@[simp] theorem State.movePorts_bank (s : State) : s.movePorts.bank = s.bank := by
  obtain ⟨_, _, _, _, e, _⟩ := s.movePorts_cases
  rw [e]

/-- Settles O19: an edge that executes nothing only moves beats on the ports. -/
theorem bankStillWhileWaiting : Obligations.BankStillWhileWaiting := by
  intro s t hr hw h
  cases (step_of_waiting hr hw).symm.trans h
  simp

@[simp] theorem Parser.ready_idle : Parser.idle.ready = false := rfl

theorem Parser.ready_collect_of_lt {hdr : Beat} {got : List Beat} (h : got.length < payloadLen hdr) :
    (Parser.collect hdr got).ready = false := by
  simpa [Parser.ready] using h

theorem State.movePorts_of_offered {s : State} {b : Beat} {bs : List Beat} (hr : s.hostEdge.rst = false)
    (hv : s.hostEdge.cmdValid = true) (hq : s.rspQueue = []) (hs : s.cmdStream = b :: bs)
    (hp : s.parser.ready = false) :
    s.movePorts = { s with parser := s.parser.push b, cmdStream := bs } := by
  have hrsp : s.rspValid = false := by simp [State.rspValid, hq]
  have hcmd : s.cmdReady = true := by simp [State.cmdReady, hr, hp, hq]
  simp [State.movePorts, State.takeCommand, hrsp, hcmd, hv, hs]

/-- With no response pending and a beat still missing, the edge moves the offered beat into the parser. -/
theorem step_of_offered {s : State} {b : Beat} {bs : List Beat} (hr : s.hostEdge.rst = false)
    (hv : s.hostEdge.cmdValid = true) (hq : s.rspQueue = []) (hs : s.cmdStream = b :: bs)
    (hp : s.parser.ready = false) :
    step s = .next { s with
      parser := s.parser.push b, cmdStream := bs, edges := s.edges.tail, edgeCount := s.edgeCount + 1 } := by
  rcases step_cases s with ⟨h, _⟩ | ⟨_, h, _⟩ | ⟨_, _, h⟩
  · simp [hr] at h
  · simp [State.canExecute, hp] at h
  · rw [h, State.movePorts_of_offered hr hv hq hs hp]
    rfl

/-- Settles O20: a header is pushed onto the idle parser, a payload beat onto the beats collected so far. -/
theorem offeredBeatIsCollected : Obligations.OfferedBeatIsCollected := by
  intro s b bs hr hv hq hs
  constructor
  · intro hp
    have h := step_of_offered hr hv hq hs (by rw [hp, Parser.ready_idle])
    rwa [hp] at h
  · intro hdr got hp hl
    have h := step_of_offered hr hv hq hs (by rw [hp, Parser.ready_collect_of_lt hl])
    rwa [hp] at h

/-- Settles O7: a collected command runs on the state in which its beats are consumed. -/
theorem stepRunsDecodedCommand : Obligations.StepRunsDecodedCommand := by
  intro s hdr got rest i hc hd
  rw [step_of_commandReady hc, hd]
  rfl

/-! ### Several edges -/

theorem steps_succ_of_next {s t : State} (k : Nat) (h : step s = .next t) : steps (k + 1) s = steps k t := by
  simp [steps, h]

theorem steps_one (s : State) : steps 1 s = step s := by
  cases h : step s <;> simp [steps, h]

/-- The first `m` of `m + k` steps. -/
theorem steps_add_of_next {m : Nat} {s t : State} (k : Nat) (h : steps m s = .next t) :
    steps (m + k) s = steps k t := by
  induction m generalizing s with
  | zero =>
    cases h
    rw [Nat.zero_add]
  | succ m ih =>
    rw [Nat.add_right_comm]
    simp only [steps] at h ⊢
    cases hs : step s with
    | next u =>
      rw [hs] at h
      exact ih h
    | fault r => simp [hs] at h
    | refused r => simp [hs] at h

/-- Past the end of its list of levels the host offers a beat whenever no response is pending (log 3). -/
theorem State.hostEdge_of_quiet {s : State} (he : s.edges = []) (hq : s.rspQueue = []) :
    s.hostEdge = ⟨false, true, true⟩ := by
  simp [State.hostEdge, State.defaultEdge, he, hq]

theorem step_of_quiet {s : State} {b : Beat} {bs : List Beat} (he : s.edges = []) (hq : s.rspQueue = [])
    (hs : s.cmdStream = b :: bs) (hp : s.parser.ready = false) :
    step s = .next { s with parser := s.parser.push b, cmdStream := bs, edgeCount := s.edgeCount + 1 } := by
  have hedge := State.hostEdge_of_quiet he hq
  rw [step_of_offered (by rw [hedge]) (by rw [hedge]) hq hs hp, he, List.tail_nil]

/-- The parser collects payload beats one edge after another, as long as its header calls for them. -/
theorem steps_collect (beats rest : List Beat) {hdr : Beat} {got : List Beat} {s : State}
    (he : s.edges = []) (hq : s.rspQueue = []) (hl : got.length + beats.length ≤ payloadLen hdr) :
    steps beats.length { s with parser := .collect hdr got, cmdStream := beats ++ rest } = .next { s with
      parser := .collect hdr (got ++ beats), cmdStream := rest, edgeCount := s.edgeCount + beats.length } := by
  induction beats generalizing s got with
  | nil => simp [steps]
  | cons b bs ih =>
    rw [List.length_cons] at hl ⊢
    have hstep := step_of_quiet (s := { s with parser := .collect hdr got, cmdStream := b :: (bs ++ rest) })
      he hq rfl (Parser.ready_collect_of_lt (by omega))
    have hrest := ih (s := { s with edgeCount := s.edgeCount + 1 }) (got := got ++ [b]) he hq
      (by rw [List.length_append, List.length_singleton]; omega)
    rw [List.cons_append, steps_succ_of_next _ hstep]
    simpa [Parser.push, Nat.add_assoc, Nat.add_comm 1] using hrest

/-- An idle parser collects a whole command: its header, then its payload (10_state.md R29). -/
theorem steps_collect_encode {i : Instr} (rest : List Beat) {s : State} (hw : i.wellFormed = true)
    (he : s.edges = []) (hp : s.parser = .idle) (hq : s.rspQueue = []) (hs : s.cmdStream = encode i ++ rest) :
    steps (encode i).length s = .next { s with
      parser := .collect (encodeHeader i) (encodePayload i), cmdStream := rest
      edgeCount := s.edgeCount + (encode i).length } := by
  have hheader := step_of_quiet he hq hs (by rw [hp, Parser.ready_idle])
  rw [hp] at hheader
  have hpayload := steps_collect (s := { s with edgeCount := s.edgeCount + 1 }) (hdr := encodeHeader i) (got := [])
    (encodePayload i) rest he hq (by simp [length_encodePayload hw])
  rw [encode, List.length_cons, steps_succ_of_next _ hheader]
  simpa [Parser.push, Nat.add_assoc, Nat.add_comm 1] using hpayload

/-- Settles O22: the beats of the command are collected, one edge each, and at the next edge it runs. -/
theorem streamedCommandExecutes : Obligations.StreamedCommandExecutes := by
  intro s i rest hw he hp hq hs
  have hdecode : decode (encodeHeader i :: encodePayload i) = .command i [] := by
    simpa [encode] using decode_encode [] hw
  have hready : CommandReady { s with
      parser := .collect (encodeHeader i) (encodePayload i), cmdStream := rest
      edgeCount := s.edgeCount + (encode i).length } (encodeHeader i) (encodePayload i) :=
    ⟨congrArg HostEdge.rst (State.hostEdge_of_quiet he hq), rfl, length_encodePayload hw, hq⟩
  rw [steps_add_of_next 1 (steps_collect_encode rest hw he hp hq hs), steps_one,
    stepRunsDecodedCommand _ _ _ _ _ hready hdecode]
  simp [he, hp, Nat.add_assoc]

/-! ### A command and its slot -/

/-- What a command writes into the slot it names, from what that slot holds, if there is such a slot. -/
def namedWrite (i : Instr) (held : Option LmsState) : Option LmsState :=
  match held with
  | none => none
  | some v => if tooManySamples i = true then none else slotWritten i v

/-- The response of a command that names slot `c`, from what that slot holds, if there is such a slot. -/
def namedResponse (i : Instr) (c : Channel) (held : Option LmsState) : List Beat :=
  match held with
  | none => [statusWord i.opcode.byte c .errChannel]
  | some v =>
    if tooManySamples i = true then [statusWord i.opcode.byte c .errCount]
    else statusWord i.opcode.byte c .ok :: resultBeats i v

theorem namedWrite_of_reads {i : Instr} (h : writesSlot i = false) (held : Option LmsState) :
    namedWrite i held = none := by
  cases held with
  | none => rfl
  | some v => simp [namedWrite, slotWritten_of_reads h]

theorem exec_of_no_slotOf {i : Instr} (h : slotOf i = none) (s : State) :
    exec i s = .next (s.respond (statusWord i.opcode.byte 0 .ok :: resultBeats i Config.initLms)) := by
  rcases exec_cases i s with ⟨_, _, e⟩ | ⟨c, hc, _⟩
  · exact e Config.initLms
  · simp [h] at hc

/-- A command that names a slot writes and answers what that slot's content determines. -/
theorem exec_of_slotOf {i : Instr} {c : Channel} (h : slotOf i = some c) (s : State) :
    exec i s = .next ((s.writeNamed c (namedWrite i (s.slot c))).respond (namedResponse i c (s.slot c))) := by
  rcases exec_cases i s with ⟨hn, _⟩ | ⟨c', hc, e⟩
  · simp [h] at hn
  · obtain rfl : c = c' := Option.some.inj (h.symm.trans hc)
    rcases e with ⟨hn, e⟩ | ⟨v, hv, ⟨ht, e⟩ | ⟨ht, e⟩⟩
    · rw [e, (s.slot_eq_none_iff c).2 hn]
      rfl
    · simp [e, hv, namedWrite, namedResponse, ht, State.writeNamed]
    · simp [e, hv, namedWrite, namedResponse, ht]

/-- Every command writes at most the slot it names, and that one only if it is a command that writes. -/
theorem exec_eq_next {i : Instr} {s t : State} (h : exec i s = .next t) :
    ∃ c w new, t = (s.writeNamed c w).respond new ∧
      (w = none ∨ slotOf i = some c ∧ writesSlot i = true) := by
  cases hc : slotOf i with
  | none =>
    cases (exec_of_no_slotOf hc s).symm.trans h
    exact ⟨0, none, _, rfl, .inl rfl⟩
  | some c =>
    cases (exec_of_slotOf hc s).symm.trans h
    refine ⟨c, _, _, rfl, ?_⟩
    cases hw : writesSlot i with
    | false => exact .inl (namedWrite_of_reads hw _)
    | true => exact .inr ⟨rfl, rfl⟩

/-- Settles O53: the new state is the old one with at most the named slot written and the response added. -/
theorem commandsChangeOnlyTheirSlot : Obligations.CommandsChangeOnlyTheirSlot := by
  intro i s t h
  obtain ⟨c, w, new, rfl, hw⟩ := exec_eq_next h
  refine ⟨?_, ?_, by simp, by simp, by simp, by simp, by simp, by simp, new, by simp⟩
  · intro k hk
    rcases hw with rfl | ⟨hc, _⟩
    · rfl
    · exact State.writeNamed_bank_ne s c w k (hk c hc)
  · intro hreads
    rcases hw with rfl | ⟨_, hwrites⟩
    · rfl
    · simp [hreads] at hwrites

/-- Slots of equal content have equal content after the same write. -/
theorem State.writeNamed_slot_congr {s t : State} {c : Channel} (h : s.slot c = t.slot c)
    (w : Option LmsState) : (s.writeNamed c w).slot c = (t.writeNamed c w).slot c := by
  cases w with
  | none => exact h
  | some w =>
    simp only [State.slot] at h
    simp [State.writeNamed, State.slot, List.getElem?_set_self', h]

/-- Settles O54: what a command writes and answers is a function of the content of its slot. -/
theorem slotsAreIndependent : Obligations.SlotsAreIndependent := by
  intro i s t s' t' _ hslot hs ht
  cases hi : slotOf i with
  | none =>
    cases (exec_of_no_slotOf hi s).symm.trans hs
    cases (exec_of_no_slotOf hi t).symm.trans ht
    exact ⟨⟨_, rfl, rfl⟩, fun c hc => by cases hc⟩
  | some c =>
    have hcontent : s.slot c = t.slot c := hslot c hi
    cases (exec_of_slotOf hi s).symm.trans hs
    cases (exec_of_slotOf hi t).symm.trans ht
    rw [hcontent]
    refine ⟨⟨namedResponse i c (t.slot c), by simp, by simp⟩, fun d hd => ?_⟩
    cases hd
    exact State.writeNamed_slot_congr hcontent _

end Sys2Proof.Machine

/-! SUPPORT. Proofs of the statements of 20_memory.md: the two ports (R41, R46), repeated commands (R49), and the
snapshot that comes back (R44, R52). -/

namespace Sys2Proof.Machine

open Sys2Proof.Safety

/-! ### The response port -/

theorem State.rspValid_of_pending {s : State} {w : Beat} {ws : List Beat} (hr : s.hostEdge.rst = false)
    (hq : s.rspQueue = w :: ws) : s.rspValid = true := by
  simp [State.rspValid, hr, hq]

/-- What the host has accepted and what is still pending, in order, is unchanged by the movement of beats. -/
theorem State.movePorts_responses (s : State) :
    s.movePorts.rspTaken ++ s.movePorts.rspQueue = s.rspTaken ++ s.rspQueue := by
  obtain ⟨_, _, _, _, e, ⟨hq, htaken, _⟩ | ⟨w, hq, htaken, _⟩, _⟩ := s.movePorts_cases
  · simp [e, hq, htaken]
  · simp [e, hq, htaken]

theorem State.movePorts_response_held {s : State} (h : s.hostEdge.rspReady = false) :
    s.movePorts.rspQueue = s.rspQueue ∧ s.movePorts.rspTaken = s.rspTaken := by
  obtain ⟨_, _, _, _, e, ⟨hq, htaken, _⟩ | ⟨_, _, _, _, hready⟩, _⟩ := s.movePorts_cases
  · exact e ▸ ⟨hq, htaken⟩
  · simp [h] at hready

theorem State.movePorts_response_taken {s : State} {w : Beat} {ws : List Beat} (hr : s.hostEdge.rst = false)
    (hq : s.rspQueue = w :: ws) (h : s.hostEdge.rspReady = true) :
    s.movePorts.rspQueue = ws ∧ s.movePorts.rspTaken = s.rspTaken ++ [w] := by
  obtain ⟨_, _, _, _, e, ⟨_, _, hlow⟩ | ⟨w', hq', htaken, _⟩, _⟩ := s.movePorts_cases
  · simp [h, State.rspValid_of_pending hr hq] at hlow
  · cases hq.symm.trans hq'
    exact e ▸ ⟨rfl, htaken⟩

/-- The end of a collected command adds its response at the end of the queue. -/
theorem runCollected_responses {s t : State} (h : runCollected s = .next t) :
    ∃ new, t.rspTaken ++ t.rspQueue = s.rspTaken ++ s.rspQueue ++ new := by
  obtain ⟨u, hu, _, _, htaken, _, _, ⟨_, w, ws, hq⟩ | hsame⟩ := runCollected_next s
  · cases hu.symm.trans h
    exact ⟨w :: ws, by simp [htaken, hq]⟩
  · cases hu.symm.trans h
    exact ⟨[], by simp [hsame]⟩

/-- Settles O16: the ports only move words from the queue to the host, and a command only appends. -/
theorem responseStreamIsLossless : Obligations.ResponseStreamIsLossless := by
  intro s t hr h
  rcases step_cases s with ⟨hr', _⟩ | ⟨_, hc, e⟩ | ⟨_, _, e⟩
  · simp [hr] at hr'
  · obtain ⟨new, hnew⟩ := runCollected_responses (e.symm.trans h)
    refine ⟨new, hnew, fun hw => ?_⟩
    simp [canExecute_of_waiting hw] at hc
  · cases e.symm.trans h
    exact ⟨[], by simpa using s.movePorts_responses, fun _ => rfl⟩

theorem waiting_of_pending {s : State} {w : Beat} {ws : List Beat} (hq : s.rspQueue = w :: ws) : Waiting s :=
  .inl (by simp [hq])

/-- Settles O18: a pending response word keeps commands from executing, so the edge only moves beats. -/
theorem responseBeatHoldsUntilTaken : Obligations.ResponseBeatHoldsUntilTaken := by
  intro s t w ws hr hq h
  cases (step_of_waiting hr (waiting_of_pending hq)).symm.trans h
  constructor
  · intro hready
    simpa [hq] using State.movePorts_response_held hready
  · intro hready
    simpa using State.movePorts_response_taken hr hq hready

/-! ### Draining the response -/

/-- Past the end of its list of levels the host takes a pending response word and offers no beat (log 3). -/
theorem State.hostEdge_of_pending {s : State} {w : Beat} {ws : List Beat} (he : s.edges = [])
    (hq : s.rspQueue = w :: ws) : s.hostEdge = ⟨false, false, true⟩ := by
  simp [State.hostEdge, State.defaultEdge, he, hq]

theorem step_of_pending {s : State} {w : Beat} {ws : List Beat} (he : s.edges = [])
    (hq : s.rspQueue = w :: ws) :
    step s = .next { s with rspQueue := ws, rspTaken := s.rspTaken ++ [w], edgeCount := s.edgeCount + 1 } := by
  have hedge := State.hostEdge_of_pending he hq
  have hvalid := State.rspValid_of_pending (by rw [hedge]) hq
  have hmove : s.movePorts = { s with rspQueue := ws, rspTaken := s.rspTaken ++ [w] } := by
    simp [State.movePorts, State.takeResponse, hedge, hvalid, hq]
  rw [step_of_waiting (by rw [hedge]) (waiting_of_pending hq), hmove]
  simp [State.advance, he]

theorem steps_drain (words : List Beat) {s : State} (he : s.edges = []) :
    steps words.length { s with rspQueue := words } = .next { s with
      rspQueue := [], rspTaken := s.rspTaken ++ words, edgeCount := s.edgeCount + words.length } := by
  induction words generalizing s with
  | nil => simp [steps]
  | cons w ws ih =>
    have hstep := step_of_pending (s := { s with rspQueue := w :: ws }) he rfl
    have hrest := ih (s := { s with rspTaken := s.rspTaken ++ [w], edgeCount := s.edgeCount + 1 }) he
    rw [List.length_cons, steps_succ_of_next _ hstep, hrest]
    simp [Nat.add_assoc, Nat.add_comm 1]

/-- Settles O23: one pending word reaches the host at each edge. -/
theorem responseDrains : Obligations.ResponseDrains := fun s => steps_drain s.rspQueue

/-! ### The command port -/

/-- What the parser holds and what the host has still to send, in order, is unchanged by the movement of beats. -/
theorem State.movePorts_commands (s : State) :
    parserBeats s.movePorts.parser ++ s.movePorts.cmdStream = parserBeats s.parser ++ s.cmdStream := by
  obtain ⟨_, _, _, _, e, _, ⟨hp, hstream, _⟩ | ⟨b, hstream, hp, _⟩⟩ := s.movePorts_cases
  · simp [e, hp, hstream]
  · simp [e, hp, hstream, parserBeats_push]

theorem State.movePorts_command_taken {s : State} {b : Beat} {bs : List Beat}
    (hv : s.hostEdge.cmdValid = true) (hc : s.cmdReady = true) (hs : s.cmdStream = b :: bs) :
    s.movePorts.cmdStream = bs ∧ s.movePorts.parser = s.parser.push b := by
  obtain ⟨_, _, _, _, e, _, ⟨_, _, hlow⟩ | ⟨b', hs', hp, _⟩⟩ := s.movePorts_cases
  · simp [hv, hc, hs] at hlow
  · cases hs.symm.trans hs'
    exact e ▸ ⟨rfl, hp⟩

theorem State.movePorts_command_held {s : State}
    (h : s.hostEdge.cmdValid = false ∨ s.cmdReady = false ∨ s.cmdStream = []) :
    s.movePorts.cmdStream = s.cmdStream ∧ s.movePorts.parser = s.parser := by
  obtain ⟨_, _, _, _, e, _, ⟨hp, hstream, _⟩ | ⟨b, hs, _, _, hc, hv⟩⟩ := s.movePorts_cases
  · exact e ▸ ⟨hstream, hp⟩
  · simp [hv, hc, hs] at h

/-- Settles O17: an edge that executes nothing moves the offered beat by the handshake, and no other. -/
theorem commandStreamIsLossless : Obligations.CommandStreamIsLossless := by
  intro s t hr hw h
  cases (step_of_waiting hr hw).symm.trans h
  refine ⟨s.movePorts_commands, fun b bs hv hc hs => ?_, State.movePorts_command_held⟩
  obtain ⟨hstream, hp⟩ := State.movePorts_command_taken hv hc hs
  exact ⟨hstream, by rw [State.advance_parser, hp, parserBeats_push]⟩

/-! ### Repeated commands -/

/-- The response of a command that writes no slot is a function of the bank. -/
theorem exec_of_reads {i : Instr} (h : writesSlot i = false) (s : State) :
    ∃ new, ∀ t : State, t.bank = s.bank → exec i t = .next (t.respond new) := by
  cases hc : slotOf i with
  | none => exact ⟨_, fun t _ => exec_of_no_slotOf hc t⟩
  | some c =>
    refine ⟨namedResponse i c (s.slot c), fun t ht => ?_⟩
    have hslot : t.slot c = s.slot c := by simp only [State.slot, ht]
    rw [exec_of_slotOf hc, namedWrite_of_reads h, hslot]
    rfl

/-- Settles O55: the first execution leaves the bank, and so the second response, as they were. -/
theorem readingCommandsRepeat : Obligations.ReadingCommandsRepeat := by
  intro i s t hreads h
  obtain ⟨new, hnew⟩ := exec_of_reads hreads s
  cases (hnew s rfl).symm.trans h
  exact ⟨new, rfl, hnew _ (State.respond_bank s new)⟩

/-- A command that writes the same content whatever its slot holds sets that place of the bank; a missing slot is
no place of the bank. -/
theorem exec_bank_of_const_write {i : Instr} {c : Channel} {w : LmsState} (hc : slotOf i = some c)
    (hi : tooManySamples i = false) (hw : ∀ v, slotWritten i v = some w) {s t : State}
    (h : exec i s = .next t) : t.bank = s.bank.set c.toNat w := by
  cases (exec_of_slotOf hc s).symm.trans h
  cases hslot : s.slot c with
  | none => exact (List.set_eq_of_length_le ((s.slot_eq_none_iff c).1 hslot)).symm
  | some v => simp [namedWrite, hi, hw, State.writeNamed]

theorem exec_twice_bank_of_const_write {i : Instr} {c : Channel} {w : LmsState} (hc : slotOf i = some c)
    (hi : tooManySamples i = false) (hw : ∀ v, slotWritten i v = some w) {s t u : State}
    (ht : exec i s = .next t) (hu : exec i t = .next u) : u.bank = t.bank := by
  rw [exec_bank_of_const_write hc hi hw hu, exec_bank_of_const_write hc hi hw ht, List.set_set]

/-- Settles O56: what LMS_INIT and LMS_LOAD write does not depend on what the slot holds. -/
theorem initAndLoadAreIdempotent : Obligations.InitAndLoadAreIdempotent := fun _ _ _ _ _ =>
  ⟨exec_twice_bank_of_const_write rfl rfl fun _ => rfl, exec_twice_bank_of_const_write rfl rfl fun _ => rfl⟩

/-! ### A snapshot that comes back -/

theorem encodeHeader_lmsLoad (c : Channel) (v : LmsState) :
    encodeHeader (.lmsLoad c v) = BitVec.ofNat 32 (0x02 * 2 ^ 24 + c.toNat * 2 ^ 16) := by
  apply BitVec.eq_of_toNat_eq
  have := c.isLt
  rw [encodeHeader, makeHeader_toNat, BitVec.toNat_ofNat]
  simp
  omega

theorem exec_lmsStore {s : State} {c : Channel} {v : LmsState} (h : s.slot c = some v) :
    exec (.lmsStore c) s = .next (s.respond (statusBeat 0x03 c.toNat 0 :: beatsOfSnapshot v)) :=
  exec_of_slot (.lmsStore c) h rfl rfl

theorem exec_lmsLoad_slot {u : State} {c : Channel} (v : LmsState) (h : c.toNat < u.nch) :
    ∃ w, exec (.lmsLoad c v) u = .next w ∧ w.slot c = some v := by
  obtain ⟨old, hold⟩ := (u.slot_eq_some_iff c).2 h
  exact ⟨_, exec_of_slot (.lmsLoad c v) hold rfl rfl, State.setSlot_slot_self v h⟩

/-- Settles O57: the result beats of LMS_STORE are the payload that encodes LMS_LOAD of the same content. -/
theorem storeThenLoadRestores : Obligations.StoreThenLoadRestores := by
  intro s u c v hs hu
  obtain ⟨w, hw, hslot⟩ := exec_lmsLoad_slot v hu
  refine ⟨_, _, _, _, exec_lmsStore hs, w, ?_, hw, hslot⟩
  rw [← encodeHeader_lmsLoad c v]
  exact decode_encode (i := .lmsLoad c v) [] rfl

end Sys2Proof.Machine

/-! SUPPORT. Proofs of the statements of 30_encoding.md: headers, operands and payloads (R60 to R66, R70, R72), and
the response to a collected command (R60, R67, R68). -/

namespace Sys2Proof

open Sys2Proof.Safety

/-! ### Encoding a command and decoding it -/

/-- Settles O1: what a command's own header and payload assemble to is the command. -/
theorem decodeInvertsEncode : Obligations.DecodeInvertsEncode := fun _ => decode_encode

theorem workedEncodings_encode : ∀ p ∈ workedEncodings, p.1.wellFormed = true ∧ encode p.1 = p.2 := by
  decide

/-- Settles O2: the beats of the table are the encodings of its commands, which decode from them. -/
theorem workedEncodingsDecode : Obligations.WorkedEncodingsDecode := by
  intro p hp
  obtain ⟨hw, he⟩ := workedEncodings_encode p hp
  have hd := decode_encode [] hw
  rw [List.append_nil, he] at hd
  exact ⟨he, hd⟩

/-- Settles O3: a command is assembled from every bit of its header that is not reserved, and those are zero. -/
theorem decodedHeaderIsItsEncoding : Obligations.DecodedHeaderIsItsEncoding := by
  intro hdr more rest i h
  obtain ⟨op, hop, hr, hl, rfl, _⟩ := decode_eq_command h
  have hlen : (more.take (payloadLen hdr)).length = payloadLen hdr := List.length_take_of_le hl
  have hw := wellFormed_assemble hop hlen
  exact ⟨hw, encodeHeader_assemble hop hr hlen, decode_encode rest hw⟩

/-! ### The three kinds of header -/

theorem decode_of_reservedOpcode {hdr : Beat} {got : List Beat} (rest : List Beat)
    (hl : got.length = payloadLen hdr) (hd : definedOp (opOf hdr) = false) :
    decode (hdr :: (got ++ rest)) = .rejected .reservedOpcode :=
  (decode_whole hdr got rest hl).trans (decodeWhole_reservedOpcode got rest hd)

theorem decode_of_reservedBitSet {hdr : Beat} {got : List Beat} (rest : List Beat)
    (hl : got.length = payloadLen hdr) (hd : definedOp (opOf hdr) = true) (hr : reservedBitSet hdr = true) :
    decode (hdr :: (got ++ rest)) = .rejected .reservedBits := by
  obtain ⟨_, _, h⟩ := decodeWhole_defined got rest hd
  rw [decode_whole hdr got rest hl, h, if_pos hr]

theorem decode_of_opcode {hdr : Beat} {got : List Beat} {op : Opcode} (rest : List Beat)
    (hl : got.length = payloadLen hdr) (hop : hdrOp hdr = op.byte) (hr : reservedBitSet hdr = false) :
    decode (hdr :: (got ++ rest)) = .command (op.assemble hdr got) rest :=
  (decode_whole hdr got rest hl).trans (decodeWhole_command got rest hop hr)

theorem exists_opcode_of_definedOp {hdr : Beat} (hd : definedOp (opOf hdr) = true) :
    ∃ op : Opcode, hdrOp hdr = op.byte := by
  obtain ⟨op, hop, _⟩ := decodeWhole_defined [] [] hd
  exact ⟨op, hop⟩

theorem opOf_of_hdrOp {hdr : Beat} {op : Opcode} (hop : hdrOp hdr = op.byte) : opOf hdr = op.byte.toNat := by
  rw [← hdrOp_toNat, hop]

theorem opNumber_assemble {op : Opcode} {hdr : Beat} (got : List Beat) (hop : hdrOp hdr = op.byte) :
    opNumber (op.assemble hdr got) = opOf hdr := by
  rw [opNumber_eq, opcode_assemble, opOf_of_hdrOp hop]

theorem hdrOp_of_opOf {hdr : Beat} {op : Opcode} (h : opOf hdr = op.byte.toNat) : hdrOp hdr = op.byte :=
  BitVec.eq_of_toNat_eq ((hdrOp_toNat hdr).trans h)

/-- Only defined opcodes have a payload (30_encoding.md R65, R66). -/
theorem payloadLen_of_reservedOpcode {hdr : Beat} (hd : definedOp (opOf hdr) = false) : payloadLen hdr = 0 := by
  rw [payloadLen_eq, payloadCount]
  split
  case h_6 => rfl
  all_goals
    rename_i h
    simp [h, definedOp] at hd

/-- Settles O4: the opcode map first, then the mask of the opcode's row, and else the row's command. -/
theorem everyHeaderIsOneOfThree : Obligations.EveryHeaderIsOneOfThree := by
  intro hdr got rest hl
  refine ⟨fun hd => ⟨payloadLen_of_reservedOpcode hd, decode_of_reservedOpcode rest hl hd⟩,
    decode_of_reservedBitSet rest hl, fun hd hr => ?_⟩
  obtain ⟨op, hop⟩ := exists_opcode_of_definedOp hd
  exact ⟨_, decode_of_opcode rest hl hop hr, opNumber_assemble got hop⟩

/-! ### The payload length -/

/-- Once the payload is there, nothing is waited for. -/
theorem decodeWhole_ne_incomplete (hdr : Beat) (got rest : List Beat) :
    decodeWhole hdr got rest ≠ .rejected .incomplete := by
  cases hd : definedOp (opOf hdr) with
  | false => simp [decodeWhole_reservedOpcode got rest hd]
  | true =>
    obtain ⟨op, _, h⟩ := decodeWhole_defined got rest hd
    rw [h]
    split <;> simp

theorem decode_incomplete_iff (hdr : Beat) (more : List Beat) :
    decode (hdr :: more) = .rejected .incomplete ↔ more.length < payloadLen hdr := by
  rw [decode]
  split
  · next h => simp [h]
  · next h => simp [h, decodeWhole_ne_incomplete]

/-- Settles O5: the decoder waits for the payload its header calls for, and hands on what is behind it. -/
theorem payloadLengthFromHeader : Obligations.PayloadLengthFromHeader := by
  intro hdr
  refine ⟨payloadLen_eq hdr, fun more => ?_⟩
  rw [← payloadLen_eq]
  refine ⟨decode_incomplete_iff hdr more, fun i rest h => ?_⟩
  obtain ⟨_, _, _, _, _, hrest⟩ := decode_eq_command h
  exact hrest

/-! ### Operands as bits -/

theorem hdrCh_eq_ofNat (hdr : Beat) : hdrCh hdr = BitVec.ofNat 8 (chOf hdr) := by
  rw [← hdrCh_toNat, BitVec.ofNat_toNat, BitVec.setWidth_eq]

theorem hdrSfq_eq_ofNat (hdr : Beat) : hdrSfq hdr = BitVec.ofNat 4 (hdr.toNat / 2 ^ 12) :=
  BitVec.eq_of_toNat_eq (hdrSfq_toNat hdr)

theorem hdrCode_eq_ofNat (hdr : Beat) : hdrCode hdr = BitVec.ofNat 3 (hdr.toNat / 2 ^ 8) :=
  BitVec.eq_of_toNat_eq (hdrCode_toNat hdr)

theorem sampleOfBeat_eq_ofNat (b : Beat) : sampleOfBeat b = BitVec.ofNat 16 b.toNat :=
  BitVec.eq_of_toNat_eq (sampleOfBeat_toNat b)

theorem lowHalf_eq_ofNat (b : Beat) : lowHalf b = BitVec.ofNat 16 b.toNat :=
  BitVec.eq_of_toNat_eq (lowHalf_toNat b)

theorem highHalf_eq_ofNat (b : Beat) : highHalf b = BitVec.ofNat 16 (b.toNat / 2 ^ 16) := by
  rw [← highHalf_toNat, BitVec.ofNat_toNat, BitVec.setWidth_eq]

theorem sliceOfBeats_eq_ofNat (hi lo : Beat) :
    sliceOfBeats hi lo = BitVec.ofNat 64 (hi.toNat * 2 ^ 32 + lo.toNat) := by
  rw [← sliceOfBeats_toNat, BitVec.ofNat_toNat, BitVec.setWidth_eq]

theorem snapshotOfBeats_eq_ofNat (b0 b1 b2 b3 : Beat) : snapshotOfBeats b0 b1 b2 b3 =
    ⟨⟨BitVec.ofNat 16 (b0.toNat / 2 ^ 16), BitVec.ofNat 16 b0.toNat,
      BitVec.ofNat 16 (b1.toNat / 2 ^ 16), BitVec.ofNat 16 b1.toNat⟩,
     ⟨BitVec.ofNat 16 (b2.toNat / 2 ^ 16), BitVec.ofNat 16 b2.toNat,
      BitVec.ofNat 16 (b3.toNat / 2 ^ 16), BitVec.ofNat 16 b3.toNat⟩⟩ := by
  simp only [snapshotOfBeats, highHalf_eq_ofNat, lowHalf_eq_ofNat]

/-- `decode_of_opcode` with the header's opcode and payload length as numbers, and the command's operands given. -/
theorem decode_of_opOf {hdr : Beat} {i : Instr} (op : Opcode) (got rest : List Beat)
    (hr : reservedBitSet hdr = false) (h : opOf hdr = op.byte.toNat) (hl : got.length = payloadCount hdr)
    (hi : op.assemble hdr got = i) : decode (hdr :: (got ++ rest)) = .command i rest :=
  hi ▸ decode_of_opcode rest (hl.trans (payloadLen_eq hdr).symm) (hdrOp_of_opOf h) hr

/-- Settles O6: each field of the header and each payload beat is read as its bits. -/
theorem operandsAreTheirBits : Obligations.OperandsAreTheirBits := by
  intro hdr rest hr
  have hch := hdrCh_eq_ofNat hdr
  have hsfq := hdrSfq_eq_ofNat hdr
  refine ⟨fun h => ?_, fun h => ?_, fun h b0 b1 b2 b3 => ?_, fun h => ?_, fun h => ?_, fun h b0 b1 => ?_,
    fun h => ?_, fun h => ?_, fun h b0 => ?_, fun h b0 b1 => ?_, fun h payload hl => ?_⟩
  · exact decode_of_opOf .nop [] rest hr h (by simp [payloadCount, h]) rfl
  · exact decode_of_opOf .lmsInit [] rest hr h (by simp [payloadCount, h]) (congrArg _ hch)
  · exact decode_of_opOf .lmsLoad [b0, b1, b2, b3] rest hr h (by simp [payloadCount, h])
      (congrArg₂ _ hch (snapshotOfBeats_eq_ofNat b0 b1 b2 b3))
  · exact decode_of_opOf .lmsStore [] rest hr h (by simp [payloadCount, h]) (congrArg _ hch)
  · exact decode_of_opOf .lmsPredict [] rest hr h (by simp [payloadCount, h]) (congrArg _ hch)
  · exact decode_of_opOf .lmsUpdate [b0, b1] rest hr h (by simp [payloadCount, h])
      (congrArg₂ (Instr.lmsUpdate · b0 ·) hch (sampleOfBeat_eq_ofNat b1))
  · exact decode_of_opOf .sfLookup [] rest hr h (by simp [payloadCount, h]) (congrArg _ hsfq)
  · exact decode_of_opOf .dequant [] rest hr h (by simp [payloadCount, h])
      (congrArg₂ _ hsfq (hdrCode_eq_ofNat hdr))
  · exact decode_of_opOf .quantize [b0] rest hr h (by simp [payloadCount, h])
      (congrArg (Instr.quantize · b0) hsfq)
  · exact decode_of_opOf .sliceDecode [b0, b1] rest hr h (by simp [payloadCount, h])
      (congrArg₂ _ hch (sliceOfBeats_eq_ofNat b0 b1))
  · exact decode_of_opOf .sliceEncode payload rest hr h (by simp [payloadCount, h, hl])
      (congrArg₂ _ hch (List.map_congr_left fun b _ => sampleOfBeat_eq_ofNat b))

/-! ### What a header says of its command -/

theorem slotOf_assemble {op : Opcode} {hdr : Beat} (got : List Beat) (hop : hdrOp hdr = op.byte) :
    slotOf (op.assemble hdr got) = if namesSlot (opOf hdr) then some (hdrCh hdr) else none := by
  rw [opOf_of_hdrOp hop]
  cases op <;> rfl

/-- A command that names no slot has `CH` among its reserved-zero bits (30_encoding.md R62). -/
theorem chOf_eq_zero_of_no_slot {op : Opcode} {hdr : Beat} (hop : hdrOp hdr = op.byte)
    (hr : reservedBitSet hdr = false) (hn : namesSlot (opOf hdr) = false) : chOf hdr = 0 := by
  have h := opOf_of_hdrOp hop
  cases op <;> simp [h, Opcode.byte, namesSlot, reservedBitSet] at hn hr
  case nop =>
    rw [chOf]
    omega
  case sfLookup => exact hr.1
  case dequant =>
    obtain ⟨⟨hch, _⟩, _⟩ := hr
    exact hch
  case quantize => exact hr.1

theorem tooManySamples_assemble {op : Opcode} {hdr : Beat} {got : List Beat} (hop : hdrOp hdr = op.byte)
    (hl : got.length = payloadLen hdr) :
    Machine.tooManySamples (op.assemble hdr got) = (opOf hdr == 0x11 && 20 < hdr.toNat % 2 ^ 5) := by
  have h := opOf_of_hdrOp hop
  cases op
  case sliceEncode =>
    have hcount : got.length = hdr.toNat % 2 ^ 5 := by
      rw [hl, payloadLen_eq, payloadCount, h]
      rfl
    simp [Opcode.assemble, Machine.tooManySamples, hcount, h, Opcode.byte]
  all_goals
    rw [h]
    rfl

end Sys2Proof

namespace Sys2Proof.Machine

open Sys2Proof.Safety

/-! ### Every step goes on -/

/-- Settles O10: reset, a collected command and the movement of beats each answer a next state. -/
theorem stepNeverStops : Obligations.StepNeverStops := by
  intro s
  rcases step_cases s with ⟨_, h⟩ | ⟨_, _, h⟩ | ⟨_, _, h⟩
  · exact ⟨_, h⟩
  · obtain ⟨t, ht, _⟩ := runCollected_next s.advance
    exact ⟨t, h.trans ht⟩
  · exact ⟨_, h⟩

/-! ### The status code -/

theorem expectedStatus_of_reservedOpcode {hdr : Beat} (n : Nat) (hd : definedOp (opOf hdr) = false) :
    expectedStatus hdr n = 1 := by
  simp [expectedStatus, hd]

theorem expectedStatus_of_reservedBitSet {hdr : Beat} (n : Nat) (hd : definedOp (opOf hdr) = true)
    (hr : reservedBitSet hdr = true) : expectedStatus hdr n = 2 := by
  simp [expectedStatus, hd, hr]

theorem definedOp_byte (op : Opcode) : definedOp op.byte.toNat = true := by cases op <;> rfl

theorem expectedStatus_of_opcode {op : Opcode} {hdr : Beat} {got : List Beat} (n : Nat)
    (hop : hdrOp hdr = op.byte) (hr : reservedBitSet hdr = false) (hl : got.length = payloadLen hdr) :
    expectedStatus hdr n =
      if namesSlot (opOf hdr) && n ≤ chOf hdr then 3
      else if tooManySamples (op.assemble hdr got) then 4 else 0 := by
  have hd : definedOp (opOf hdr) = true := by rw [opOf_of_hdrOp hop, definedOp_byte]
  rw [tooManySamples_assemble hop hl]
  simp [expectedStatus, hd, hr]

theorem tooManySamples_of_no_slotOf {i : Instr} (h : slotOf i = none) : tooManySamples i = false := by
  cases i
  case sliceEncode => cases h
  all_goals rfl

/-! ### The response to a collected command -/

/-- What a command with header `hdr` answers in state `s`: an error sends its status beat alone (60_exceptions.md
R163); a completion writes at most one slot and sends the status beat and the opcode's number of result beats
(30_encoding.md R67). -/
def AnswersHeader (hdr : Beat) (s : State) (r : Result) : Prop :=
  (expectedStatus hdr s.nch ≠ 0 ∧
    r = .next (s.respond [statusBeat (opOf hdr) (chOf hdr) (expectedStatus hdr s.nch)])) ∨
  (expectedStatus hdr s.nch = 0 ∧ ∃ c w results, results.length = resultCount (opOf hdr) ∧
    r = .next ((s.writeNamed c w).respond (statusBeat (opOf hdr) (chOf hdr) 0 :: results)))

theorem AnswersHeader.of_error {hdr : Beat} {s : State} {r : Result} {st : Status} (hst : st.code.toNat ≠ 0)
    (he : expectedStatus hdr s.nch = st.code.toNat)
    (h : r = .next (s.respond [statusBeat (opOf hdr) (chOf hdr) st.code.toNat])) : AnswersHeader hdr s r :=
  .inl (he ▸ ⟨hst, h⟩)

/-- The status beat of a decoded command echoes its header (30_encoding.md R68). -/
theorem statusWord_assemble {op : Opcode} {hdr : Beat} (got : List Beat) (st : Status)
    (hop : hdrOp hdr = op.byte) :
    statusWord (op.assemble hdr got).opcode.byte (hdrCh hdr) st
      = statusBeat (opOf hdr) (chOf hdr) st.code.toNat := by
  rw [statusWord_eq, opcode_assemble, opOf_of_hdrOp hop, hdrCh_toNat]

theorem resultBeats_assemble_length {op : Opcode} {hdr : Beat} (got : List Beat) (hop : hdrOp hdr = op.byte)
    (v : LmsState) : (resultBeats (op.assemble hdr got) v).length = resultCount (opOf hdr) := by
  rw [resultBeats_length, opNumber_assemble got hop]

theorem answersHeader_raise {hdr : Beat} {st : Status} {s : State} (hst : st.code.toNat ≠ 0)
    (he : expectedStatus hdr s.nch = st.code.toNat) :
    AnswersHeader hdr s (raise (hdrOp hdr) (hdrCh hdr) st s) :=
  .of_error hst he (by rw [raise, statusWord_eq, hdrOp_toNat, hdrCh_toNat])

theorem answersHeader_exec {op : Opcode} {hdr : Beat} {got : List Beat} (s : State)
    (hop : hdrOp hdr = op.byte) (hr : reservedBitSet hdr = false) (hl : got.length = payloadLen hdr) :
    AnswersHeader hdr s (exec (op.assemble hdr got) s) := by
  have hstatus := expectedStatus_of_opcode s.nch hop hr hl
  have hslot := slotOf_assemble got hop
  have hword := fun st => statusWord_assemble got st hop
  have hcount := resultBeats_assemble_length got hop
  cases hn : namesSlot (opOf hdr) with
  | false =>
    have hnone : slotOf (op.assemble hdr got) = none := by simpa [hn] using hslot
    have hch : hdrCh hdr = 0 := by
      rw [hdrCh_eq_ofNat, chOf_eq_zero_of_no_slot hop hr hn]
      rfl
    refine .inr ⟨by simp [hstatus, hn, tooManySamples_of_no_slotOf hnone], 0, none, _, hcount Config.initLms, ?_⟩
    rw [exec_of_no_slotOf hnone, ← hch, hword]
    rfl
  | true =>
    have hsome : slotOf (op.assemble hdr got) = some (hdrCh hdr) := by simpa [hn] using hslot
    rcases exec_cases (op.assemble hdr got) s with ⟨h, _⟩ | ⟨c, hc, h⟩
    · simp [hsome] at h
    obtain rfl : hdrCh hdr = c := Option.some.inj (hsome.symm.trans hc)
    rcases h with ⟨habsent, e⟩ | ⟨v, hv, h⟩
    · rw [hdrCh_toNat] at habsent
      exact .of_error (st := .errChannel) (by decide) (by simp [hstatus, hn, habsent, Status.code])
        (by rw [e, hword])
    · have hpresent := State.lt_nch_of_slot hv
      rw [hdrCh_toNat] at hpresent
      rcases h with ⟨ht, e⟩ | ⟨ht, e⟩
      · exact .of_error (st := .errCount) (by decide) (by simp [hstatus, hpresent, ht, Status.code])
          (by rw [e, hword])
      · exact .inr ⟨by simp [hstatus, hpresent, ht], _, _, _, hcount v, by rw [e, hword]; rfl⟩

/-- The three kinds of header answer by their code (60_exceptions.md R161, R164). -/
theorem answersHeader_runDecoded {hdr : Beat} {got : List Beat} (s : State) (hl : got.length = payloadLen hdr) :
    AnswersHeader hdr s.endCollect (runDecoded (decode (hdr :: got)) hdr s) := by
  rw [← List.append_nil got]
  cases hd : definedOp (opOf hdr) with
  | false =>
    rw [decode_of_reservedOpcode [] hl hd]
    exact answersHeader_raise (by decide) (expectedStatus_of_reservedOpcode _ hd)
  | true =>
    cases hr : reservedBitSet hdr with
    | true =>
      rw [decode_of_reservedBitSet [] hl hd hr]
      exact answersHeader_raise (by decide) (expectedStatus_of_reservedBitSet _ hd hr)
    | false =>
      obtain ⟨op, hop⟩ := exists_opcode_of_definedOp hd
      rw [decode_of_opcode [] hl hop hr]
      exact answersHeader_exec _ hop hr hl

theorem answersHeader_step {s : State} {hdr : Beat} {got : List Beat} (h : CommandReady s hdr got) :
    AnswersHeader hdr s.advance.endCollect (step s) := by
  rw [step_of_commandReady h]
  obtain ⟨_, _, hl, _⟩ := h
  exact answersHeader_runDecoded s.advance hl

/-- Settles O8: an error and a completion both answer the status beat, and leave the host's side as it was. -/
theorem everyCommandGetsOneResponse : Obligations.EveryCommandGetsOneResponse := by
  intro s hdr got h
  have hans := answersHeader_step h
  obtain ⟨_, _, _, hq⟩ := h
  rcases hans with ⟨hst, e⟩ | ⟨hst, c, w, results, hlen, e⟩
  · rw [State.endCollect_nch, State.advance_nch] at hst
    exact ⟨_, [], e, by simp [hq], by simp [hst], rfl, rfl, rfl, rfl⟩
  · rw [State.endCollect_nch, State.advance_nch] at hst
    exact ⟨_, results, e, by simp [hq, hst], by simp [hst, hlen], by simp, by simp, by simp, by simp⟩

end Sys2Proof.Machine

/-! SUPPORT. Proofs of the statements of 40_tables_quant.md: the scale-factor and dequantization tables (R80, R81), the
quantizer and its comparator form (R83, R84), and the commands that expose them (R85 to R87). -/

namespace Sys2Proof.Machine

open Sys2Proof.Safety

/-! ### The scale factors -/

/-- The 2.75th power is the fourth root of the 11th. -/
theorem rpow_two_point_seventy_five_pow_four {x : ℝ} (hx : 0 ≤ x) : (x ^ (2.75 : ℝ)) ^ 4 = x ^ 11 := by
  rw [← Real.rpow_mul_natCast hx, ← Real.rpow_natCast x 11]
  norm_num

/-- Rounding decided by fourth powers: `y` lies between `n - 1/2` and `n + 1/2` if the fourth powers of their doubles
do. -/
theorem round_eq_of_pow_four_bounds {y : ℝ} {n : ℕ} (hy : 0 ≤ y) (hlo : (2 * n - 1 : ℝ) ^ 4 ≤ 16 * y ^ 4)
    (hhi : 16 * y ^ 4 < (2 * n + 1 : ℝ) ^ 4) : round y = n := by
  have hpow : 16 * y ^ 4 = (2 * y) ^ 4 := by ring
  rw [hpow] at hlo hhi
  have h1 : 2 * n - 1 ≤ 2 * y := le_of_pow_le_pow_left₀ (by decide) (by positivity) hlo
  have h2 : 2 * y < 2 * n + 1 := lt_of_pow_lt_pow_left₀ 4 (by positivity) hhi
  rw [round_eq_iff]
  push_cast
  constructor <;> linarith

/-- The table's integers against the 11th powers: the only place that looks at the entries of R80. -/
theorem scaleFactor_pow_four_bounds : ∀ sfq : Sfq,
    (2 * scaleFactor sfq - 1 : Int) ^ 4 ≤ 16 * (sfq.toNat + 1) ^ 11 ∧
    16 * (sfq.toNat + 1 : Int) ^ 11 < (2 * scaleFactor sfq + 1) ^ 4 := by decide

/-- Settles O26: the fourth power of the exact value is an integer, and lies between those of the two half-integers
around the entry. -/
theorem scaleFactorIsRoundedPower : Obligations.ScaleFactorIsRoundedPower := by
  intro sfq
  obtain ⟨hlo, hhi⟩ := scaleFactor_pow_four_bounds sfq
  have hx : (0 : ℝ) ≤ sfq.toNat + 1 := by positivity
  refine (round_eq_of_pow_four_bounds (Real.rpow_nonneg hx _) ?_ ?_).symm
  · rw [rpow_two_point_seventy_five_pow_four hx]
    exact_mod_cast hlo
  · rw [rpow_two_point_seventy_five_pow_four hx]
    exact_mod_cast hhi

/-! ### The dequantization table -/

/-- The clamp of R81 never acts. -/
theorem deq_eq_rhaz : ∀ (sfq : Sfq) (r : Code), deq sfq r = rhaz (scaleFactor sfq * shapeQuarters r) 4 := by
  decide

theorem deq_even_rises : ∀ sfq : Sfq,
    0 < deq sfq 0 ∧ deq sfq 0 < deq sfq 2 ∧ deq sfq 2 < deq sfq 4 ∧ deq sfq 4 < deq sfq 6 := by decide

theorem deq_succ_of_even : ∀ (sfq : Sfq) (r : Code), r.toNat % 2 = 0 → deq sfq (r + 1) = -deq sfq r := by decide

/-- Settles O27: with no clamp an entry is the rounded product, whose laws are those of `rhaz`. -/
theorem dequantTableIsRoundedProduct : Obligations.DequantTableIsRoundedProduct := by
  intro sfq r
  obtain ⟨hnear, htie⟩ := rhaz_nearest (scaleFactor sfq * shapeQuarters r) (den := 4) (by decide)
  rw [← deq_eq_rhaz] at hnear htie
  obtain ⟨hmin, hmax⟩ := deq_range sfq r
  obtain ⟨h0, h2, h4, h6⟩ := deq_even_rises sfq
  exact ⟨deq_eq_deqEntry sfq r, hnear, htie, by omega, h0, h2, h4, h6, deq_succ_of_even sfq r⟩

/-! ### The quantizer -/

/-- All codes, in the order in which the quantizer scans them (R83). -/
def scannedCodes : List Code := [0, 1, 2, 3, 4, 5, 6, 7]

theorem mem_scannedCodes : ∀ r : Code, r ∈ scannedCodes := by decide

theorem idxOf_scannedCodes : ∀ r : Code, scannedCodes.idxOf r = r.toNat := by decide

/-- The scan keeps the first of the codes at the least distance, as the library's `List.argmin` does. -/
theorem argmin_scannedCodes (sfq : Sfq) (e : Int) :
    scannedCodes.argmin (fun r => absDiff e (deq sfq r)) = some (quantCode sfq e) :=
  List.foldl_hom some fun _ _ => (apply_ite some ..).symm

theorem nearest_quantCode (sfq : Sfq) (e : Int) : Nearest sfq e (quantCode sfq e) := by
  obtain ⟨_, hmin, hfirst⟩ := List.argmin_eq_some_iff.1 (argmin_scannedCodes sfq e)
  simp only [idxOf_scannedCodes, absDiff, deq_eq_deqEntry] at hmin hfirst
  exact fun r => ⟨hmin r (mem_scannedCodes r), fun h => hfirst r (mem_scannedCodes r) h.le⟩

/-- Settles O28: the scan answers the first minimum of the distance, and codes stand in ascending order. -/
theorem quantizerFindsNearestCode : Obligations.QuantizerFindsNearestCode :=
  fun sfq e => ⟨nearest_quantCode sfq e, deq_eq_deqEntry sfq _⟩

theorem forall_code {p : Code → Prop} : (∀ r, p r) ↔ p 0 ∧ p 1 ∧ p 2 ∧ p 3 ∧ p 4 ∧ p 5 ∧ p 6 ∧ p 7 := by
  have h : (∀ r, p r) ↔ ∀ r ∈ scannedCodes, p r := by simp [mem_scannedCodes]
  simpa [scannedCodes] using h

theorem deqEntry_odd (sfq : Sfq) : deqEntry sfq 1 = -deqEntry sfq 0 ∧ deqEntry sfq 3 = -deqEntry sfq 2 ∧
    deqEntry sfq 5 = -deqEntry sfq 4 ∧ deqEntry sfq 7 = -deqEntry sfq 6 := ⟨rfl, rfl, rfl, rfl⟩

/-- Settles O29: each branch of the comparators places the target between the midpoints of its code's value and the
two values next to it, so that code is the nearest, and there is only one nearest code. -/
theorem quantizerClosedForm : Obligations.QuantizerClosedForm := by
  intro sfq e
  refine Nearest.unique (nearest_quantCode sfq e) ?_
  have hrise := deq_even_rises sfq
  obtain ⟨h1, h3, h5, h7⟩ := deqEntry_odd sfq
  simp only [deq_eq_deqEntry, BitVec.ofNat_eq_ofNat] at hrise h1 h3 h5 h7 ⊢
  split_ifs
  all_goals
    simp only [Nearest, forall_code, h1, h3, h5, h7, BitVec.ofNat_eq_ofNat, BitVec.reduceToNat]
    omega

/-! ### The commands -/

/-- A command that names no slot leaves the state as it is but for its response, on channel 0. -/
theorem exec_of_no_slotOf_statusBeat {i : Instr} (h : slotOf i = none) (s : State) :
    exec i s = .next { s with
      rspQueue := s.rspQueue ++ statusBeat (opNumber i) 0 0 :: resultBeats i Config.initLms } := by
  rw [exec_of_no_slotOf h, statusWord_eq, opNumber_eq]
  rfl

/-- Settles O30: the result beat is the scale factor, which is the rounded power. -/
theorem sfLookupSendsScaleFactor : Obligations.SfLookupSendsScaleFactor := by
  intro s sfq
  rw [← scaleFactorIsRoundedPower sfq, BitVec.ofInt_natCast]
  exact exec_of_no_slotOf_statusBeat rfl s

/-- Settles O31: the result beat is the computed entry, which is the table's. -/
theorem dequantSendsTableEntry : Obligations.DequantSendsTableEntry := by
  intro s sfq r
  rw [← deq_eq_deqEntry]
  exact exec_of_no_slotOf_statusBeat rfl s

/-- Settles O32: the result beats are the scanned code, which is the nearest, and its entry, which is the table's. -/
theorem quantizeSendsNearestCode : Obligations.QuantizeSendsNearestCode := by
  intro s sfq e
  refine ⟨quantCode sfq e.toInt, nearest_quantCode sfq e.toInt, ?_⟩
  rw [← deq_eq_deqEntry]
  exact exec_of_no_slotOf_statusBeat rfl s

end Sys2Proof.Machine

/-! SUPPORT. Proofs of the statements of 41_lms.md: the prediction (R100), the update (R101, R102), and the commands on
a slot (R103 to R107). -/

namespace Sys2Proof.Machine

open Sys2Proof.Safety

/-! ### The prediction -/

theorem predict_range (v : LmsState) : -524272 ≤ predict v ∧ predict v ≤ 524288 := by
  obtain ⟨hdot, hdot'⟩ := dot_range v
  obtain ⟨hlo, hhi⟩ : predict v * 2 ^ 13 ≤ dot v ∧ dot v < (predict v + 1) * 2 ^ 13 := predicts_predict v
  omega

/-- Settles O33: the shift is the floor, its range is that of the dot product divided by 8192, and the two contents
evaluate to its ends. -/
theorem predictionIsExactFloor : Obligations.PredictionIsExactFloor :=
  ⟨fun v => ⟨predicts_predict v, predict_range v⟩, by decide, by decide⟩

/-! ### The update -/

/-- Settles O34: `delta` is the clamped shift, and every weight moves by it as its own history entry says. -/
theorem updateFollowsItsRule : Obligations.UpdateFollowsItsRule := fun v residual _ =>
  have hmoves (h w : S16) := weightMoves_updateWeight h w (updateDelta residual)
  ⟨⟨asr residual 4, updateDelta residual, floorShift_asr residual 4, clamped_clamp16 _,
    hmoves v.h.t0 v.w.t0, hmoves v.h.t1 v.w.t1, hmoves v.h.t2 v.w.t2, hmoves v.h.t3 v.w.t3⟩, rfl, rfl, rfl, rfl⟩

/-- Where the floor of the residual by 16 fits in 16 bits, it is `delta`. -/
theorem updateDelta_eq_asr {residual : Int} (hlo : -524288 ≤ residual) (hhi : residual < 524288) :
    updateDelta residual = asr residual 4 := by
  obtain ⟨hle, hlt⟩ := floorShift_asr residual 4
  obtain ⟨-, -, hid⟩ := clamped_clamp16 (asr residual 4)
  exact hid (by omega) (by omega)

/-- Settles O35: a table entry is at most 14336, which is 16 times 896, so its floor by 16 fits in 16 bits. -/
theorem internalResidualsNeverClamp : Obligations.InternalResidualsNeverClamp := by
  intro sfq r
  obtain ⟨hlo, hhi⟩ := deq_range sfq r
  have hfloor := floorShift_asr (deq sfq r) 4
  rw [updateDelta_eq_asr (by omega) (by omega)]
  have ⟨hle, hlt⟩ := hfloor
  exact ⟨by omega, by omega, hfloor⟩

/-! ### The commands -/

/-- Settles O36: the slot that is there is written with the initial state, whatever it holds. -/
theorem lmsInitSetsInitialState : Obligations.LmsInitSetsInitialState := by
  intro s c hc
  obtain ⟨v, hv⟩ := (s.slot_eq_some_iff c).2 hc
  exact exec_of_slot (.lmsInit c) hv rfl rfl

/-- Settles O37: the slot that is there is written with the snapshot, whatever it holds. -/
theorem lmsLoadSetsSnapshot : Obligations.LmsLoadSetsSnapshot := by
  intro s c snap hc
  obtain ⟨v, hv⟩ := (s.slot_eq_some_iff c).2 hc
  exact exec_of_slot (.lmsLoad c snap) hv rfl rfl

theorem pairBeat_eq_ofNat (a b : S16) : pairBeat a b = BitVec.ofNat 32 (a.toNat * 2 ^ 16 + b.toNat) := by
  rw [← pairBeat_toNat, BitVec.ofNat_toNat, BitVec.setWidth_eq]

/-- Settles O38: the result beats are the four pairs of the snapshot, as numbers. -/
theorem lmsStoreSendsSnapshot : Obligations.LmsStoreSendsSnapshot := by
  intro s c v hv
  simp only [← pairBeat_eq_ofNat]
  exact exec_lmsStore hv

/-- Settles O39: the result beat is the prediction of the slot's content, which is the exact floor. -/
theorem lmsPredictSendsPrediction : Obligations.LmsPredictSendsPrediction := fun _ c v hv =>
  ⟨predict v, predicts_predict v, exec_of_slot (.lmsPredict c) hv rfl rfl⟩

/-- Settles O40: the slot is written with the update of its content, which follows R101. -/
theorem lmsUpdateAppliesUpdate : Obligations.LmsUpdateAppliesUpdate := fun _ c v residual sample hv =>
  ⟨update v residual.toInt sample, updateFollowsItsRule v residual.toInt sample,
    exec_of_slot (.lmsUpdate c residual sample) hv rfl rfl⟩

end Sys2Proof.Machine

/-! SUPPORT. Proofs of the statements of 42_slice.md: the slice word (R120), the slice decoder (R121, R122), the slice
encoder and its search (R123 to R130), and the decoder on the encoder's words (R132, R133). -/

namespace Sys2Proof.Machine

open Sys2Proof.Safety

/-! ### The slice word -/

theorem packCodes_toNat_lt (codes : List Code) (h : codes.length ≤ 20) :
    (packCodes 0 codes).toNat = codesNumber 0 codes ∧ codesNumber 0 codes < 2 ^ 60 :=
  packCodes_toNat codes 0 (by omega)

theorem pack_toNat (sfq : Sfq) {codes : List Code} (h : codes.length ≤ 20) :
    (pack sfq codes).toNat = sliceNumber sfq codes := by
  obtain ⟨hpack, hlt⟩ := packCodes_toNat_lt codes h
  have hsfq : (sfq.setWidth 64 <<< 60).toNat = sfq.toNat <<< 60 := by
    have := sfq.isLt
    rw [BitVec.toNat_shiftLeft, BitVec.toNat_setWidth]
    omega
  rw [pack, BitVec.toNat_or, hsfq, hpack, ← Nat.shiftLeft_add_eq_or_of_lt hlt, Nat.shiftLeft_eq, sliceNumber]

theorem unpackSfq_pack (sfq : Sfq) {codes : List Code} (h : codes.length ≤ 20) :
    unpackSfq (pack sfq codes) = sfq := by
  obtain ⟨-, hlt⟩ := packCodes_toNat_lt codes h
  apply BitVec.eq_of_toNat_eq
  rw [unpackSfq_toNat, pack_toNat sfq h, sliceNumber]
  omega

/-- A three-bit field does not see a number whose bits are all above it. -/
theorem threeBits_add_above (a b : Nat) {n k : Nat} (h : n + 3 ≤ k) :
    (a * 2 ^ k + b) / 2 ^ n % 2 ^ 3 = b / 2 ^ n % 2 ^ 3 := by
  obtain ⟨d, rfl⟩ := Nat.exists_eq_add_of_le h
  have hk : a * 2 ^ (n + 3 + d) = 2 ^ n * (2 ^ 3 * (a * 2 ^ d)) := by ring
  rw [hk, Nat.mul_add_div (Nat.two_pow_pos n), Nat.mul_add_mod]

/-- The bits of position `j` are code `j`, counted from the position the codes begin at. -/
theorem codesNumber_field (codes : List Code) {k j : Nat} (hkj : k ≤ j) (hj : j < 20) (h : k + codes.length ≤ 20) :
    codesNumber k codes / 2 ^ (57 - 3 * j) % 2 ^ 3 = (codes.getD (j - k) 0).toNat := by
  induction codes generalizing k with
  | nil => simp [codesNumber]
  | cons r rs ih =>
    have hrs : k + 1 + rs.length ≤ 20 := by simp only [List.length_cons] at h; omega
    rw [codesNumber]
    rcases hkj.eq_or_lt with rfl | hlt
    · have hr := r.isLt
      have hlow : codesNumber (k + 1) rs < 2 ^ (57 - 3 * k) := by
        simpa [show 60 - 3 * (k + 1) = 57 - 3 * k by omega] using (packCodes_toNat rs (k + 1) hrs).2
      rw [Nat.mul_comm, Nat.mul_add_div (Nat.two_pow_pos _), Nat.div_eq_of_lt hlow]
      simpa using hr
    · rw [threeBits_add_above _ _ (by omega), ih hlt hrs, show j - k = j - (k + 1) + 1 by omega]
      rfl

theorem unpackCode_pack (sfq : Sfq) {codes : List Code} {j : Nat} (h : codes.length ≤ 20) (hj : j < 20) :
    unpackCode (pack sfq codes) j = codes.getD j 0 := by
  apply BitVec.eq_of_toNat_eq
  rw [unpackCode_toNat, pack_toNat sfq h, sliceNumber, threeBits_add_above _ _ (by omega),
    codesNumber_field codes (Nat.zero_le j) hj (by omega), Nat.sub_zero]

/-- Settles O41: the fields are read at their places, and a packed word is the sum of fields that do not overlap. -/
theorem sliceWordLayout : Obligations.SliceWordLayout :=
  ⟨fun slice => ⟨unpackSfq_toNat slice, fun j _ => unpackCode_toNat slice j⟩,
    fun sfq _ h => ⟨pack_toNat sfq h, unpackSfq_pack sfq h, fun _ => unpackCode_pack sfq h⟩⟩

/-- The 4 + 20 * 3 bits of the fields are all the bits of the word. -/
theorem slice_ext {a b : BitVec 64} (hsfq : unpackSfq a = unpackSfq b)
    (hcode : ∀ j < 20, unpackCode a j = unpackCode b j) : a = b := by
  apply BitVec.eq_of_getLsbD_eq
  intro i hi
  by_cases h : 60 ≤ i
  · have hbit := congrArg (fun v : Sfq => v.getLsbD (i - 60)) hsfq
    simpa [unpackSfq, show i - 60 < 4 by omega, show 60 + (i - 60) = i by omega] using hbit
  · have hbit := congrArg (fun v : Code => v.getLsbD (i % 3)) (hcode (19 - i / 3) (by omega))
    simpa [unpackCode, show i % 3 < 3 by omega, show 57 - 3 * (19 - i / 3) + i % 3 = i by omega] using hbit

theorem unpackCodes_getD (slice : BitVec 64) {j : Nat} (hj : j < 20) :
    (unpackCodes slice).getD j 0 = unpackCode slice j := by
  simp [unpackCodes, Config.samplesPerSlice, hj]

/-- Settles O42: the packed word has the fields of the word it was unpacked from, and the fields are all its bits. -/
theorem sliceFieldsFillTheWord : Obligations.SliceFieldsFillTheWord := by
  intro slice
  have hlen : (unpackCodes slice).length ≤ 20 := (unpackCodes_length slice).le
  refine slice_ext (unpackSfq_pack _ hlen) fun j hj => ?_
  rw [unpackCode_pack _ hlen hj, unpackCodes_getD slice hj]

/-- Unpacking gives the packed codes back, with code 0 in the unused positions. -/
theorem unpackCodes_pack (sfq : Sfq) {codes : List Code} (h : codes.length ≤ 20) :
    unpackCodes (pack sfq codes) = codes ++ List.replicate (20 - codes.length) 0 := by
  apply List.ext_getElem (by simp; omega)
  intro j hj _
  rw [unpackCodes_length] at hj
  have hcode := (unpackCodes_getD (pack sfq codes) hj).trans (unpackCode_pack sfq h hj)
  by_cases hjn : j < codes.length
  · simpa [hj, hjn] using hcode
  · simpa [hj, List.getElem_append_right (not_lt.1 hjn), List.getElem?_eq_none (not_lt.1 hjn)] using hcode

/-! ### The decoder -/

theorem decodeStep_stepSlot (v : LmsState) (sfq : Sfq) (r : Code) :
    DecodeStep v sfq r (wrap16 (reconstruct v (deq sfq r))) (stepSlot v sfq r) := by
  refine ⟨predict v, predicts_predict v, ?_, ?_⟩
  · rw [reconstruct_toInt, ← deq_eq_deqEntry]
    exact clamped_clamp16 _
  · rw [← deq_eq_deqEntry]
    exact updateFollowsItsRule _ _ _

theorem DecodeStep.unique {v v1 v2 : LmsState} {sfq : Sfq} {r : Code} {x y : S16} (h1 : DecodeStep v sfq r x v1)
    (h2 : DecodeStep v sfq r y v2) : x = y ∧ v1 = v2 := by
  obtain ⟨p, hp, hx, hv1⟩ := h1
  obtain ⟨q, hq, hy, hv2⟩ := h2
  obtain rfl : p = q := (Predicts.eq hp).trans (Predicts.eq hq).symm
  obtain rfl : x = y := BitVec.eq_of_toInt_eq (Clamped.unique hx hy)
  exact ⟨rfl, Updates.unique hv1 hv2⟩

/-- The machine's decode steps follow R121 one after another. -/
theorem decodes_decodeSamples (sfq : Sfq) (codes : List Code) (v : LmsState) :
    Decodes sfq v codes ((decodeSamples sfq codes v).map wrap16) (decodeSlot sfq codes v) := by
  induction codes generalizing v with
  | nil => exact .nil v
  | cons r rs ih => exact .cons (decodeStep_stepSlot v sfq r) (ih _)

theorem Decodes.unique {sfq : Sfq} {v v1 v2 : LmsState} {codes : List Code} {xs ys : List S16}
    (h1 : Decodes sfq v codes xs v1) (h2 : Decodes sfq v codes ys v2) : xs = ys ∧ v1 = v2 := by
  induction h1 generalizing ys with
  | nil => cases h2; exact ⟨rfl, rfl⟩
  | cons hstep _ ih =>
    obtain _ | ⟨hstep', hrest'⟩ := h2
    obtain ⟨rfl, rfl⟩ := DecodeStep.unique hstep hstep'
    obtain ⟨rfl, rfl⟩ := ih hrest'
    exact ⟨rfl, rfl⟩

theorem Decodes.append {sfq : Sfq} {v v1 v2 : LmsState} {rs rs' : List Code} {xs xs' : List S16}
    (h : Decodes sfq v rs xs v1) (h' : Decodes sfq v1 rs' xs' v2) :
    Decodes sfq v (rs ++ rs') (xs ++ xs') v2 := by
  induction h with
  | nil => exact h'
  | cons hstep _ ih => exact .cons hstep (ih h')

theorem Decodes.length_eq {sfq : Sfq} {v v' : LmsState} {codes : List Code} {xs : List S16}
    (h : Decodes sfq v codes xs v') : xs.length = codes.length := by
  induction h with
  | nil => rfl
  | cons _ _ ih => simp [ih]

/-- A decoded sample survives its 16-bit form on its way into a beat. -/
theorem sext32_decodeSamples (sfq : Sfq) (codes : List Code) (v : LmsState) :
    (decodeSamples sfq codes v).map sext32 =
      ((decodeSamples sfq codes v).map wrap16).map fun x => BitVec.ofInt 32 x.toInt := by
  induction codes generalizing v with
  | nil => rfl
  | cons r rs ih => simp only [decodeSamples, List.map_cons, reconstruct_toInt, sext32, ih]

/-- SLICE_DECODE sends and commits what the slice's fields decode to by R121: decoding has only one outcome. -/
theorem exec_sliceDecode {s : State} {c : Channel} {v v' : LmsState} {slice : BitVec 64} {out : List S16}
    (h : s.slot c = some v) (hd : Decodes (unpackSfq slice) v (unpackCodes slice) out v') :
    exec (.sliceDecode c slice) s = .next { s with
      bank := s.bank.set c.toNat v'
      rspQueue := s.rspQueue ++ statusBeat 0x10 c.toNat 0 :: out.map (fun x => BitVec.ofInt 32 x.toInt) } := by
  obtain ⟨rfl, rfl⟩ := Decodes.unique hd (decodes_decodeSamples _ _ v)
  rw [← sext32_decodeSamples]
  exact exec_of_slot (.sliceDecode c slice) h rfl rfl

theorem unpackSfq_eq_ofNat (slice : BitVec 64) : unpackSfq slice = BitVec.ofNat 4 (slice.toNat / 2 ^ 60) := by
  rw [← unpackSfq_toNat, BitVec.ofNat_toNat, BitVec.setWidth_eq]

/-- Settles O43: the word's numbers are its unpacked fields, and the machine's steps on them follow the rule. -/
theorem sliceDecodeRunsTwentySteps : Obligations.SliceDecodeRunsTwentySteps := by
  intro s c slice v h
  rw [← unpackSfq_eq_ofNat, ← unpackCodes_eq]
  have hd := decodes_decodeSamples (unpackSfq slice) (unpackCodes slice) v
  exact ⟨_, _, hd, (Decodes.length_eq hd).trans (unpackCodes_length slice), exec_sliceDecode h hd⟩

/-! ### One candidate of the encoder -/

theorem encodeStep_chooseCode (v : LmsState) (sfq : Sfq) (x : S16) :
    EncodeStep v sfq x (chooseCode v sfq x) (stepError v sfq x (chooseCode v sfq x))
      (stepSlot v sfq (chooseCode v sfq x)) :=
  ⟨predict v, _, predicts_predict v, nearest_quantCode sfq _, decodeStep_stepSlot v sfq _, by
    rw [reconstruct_toInt, stepError, absDiff]⟩

theorem EncodeStep.unique {v v1 v2 : LmsState} {sfq : Sfq} {x : S16} {r1 r2 : Code} {e1 e2 : Nat}
    (h1 : EncodeStep v sfq x r1 e1 v1) (h2 : EncodeStep v sfq x r2 e2 v2) : r1 = r2 ∧ e1 = e2 ∧ v1 = v2 := by
  obtain ⟨p, out, hp, hr, hstep, rfl⟩ := h1
  obtain ⟨q, out', hq, hr', hstep', rfl⟩ := h2
  obtain rfl : p = q := (Predicts.eq hp).trans (Predicts.eq hq).symm
  obtain rfl := Nearest.unique hr hr'
  obtain ⟨rfl, rfl⟩ := DecodeStep.unique hstep hstep'
  exact ⟨rfl, rfl, rfl⟩

/-- Every candidate runs to an end. -/
theorem exists_encodes (sfq : Sfq) (xs : List S16) (v : LmsState) :
    ∃ codes v' err, Encodes sfq v xs codes v' err := by
  induction xs generalizing v with
  | nil => exact ⟨_, _, _, .nil v⟩
  | cons x xs ih =>
    obtain ⟨codes, v', err, h⟩ := ih (stepSlot v sfq (chooseCode v sfq x))
    exact ⟨_, _, _, .cons (encodeStep_chooseCode v sfq x) h⟩

/-- An unpruned run adds the codes and the error of R124 to those it has already. -/
theorem Encodes.fullTrial_eq {sfq : Sfq} {v v' : LmsState} {xs : List S16} {codes : List Code} {err : Nat}
    (h : Encodes sfq v xs codes v' err) (before : List Code) (err₀ : Nat) :
    fullTrial xs ⟨sfq, before, v, err₀⟩ = ⟨sfq, before ++ codes, v', err₀ + err⟩ := by
  induction h generalizing before err₀ with
  | nil => simp [fullTrial]
  | cons hstep _ ih =>
    obtain ⟨rfl, rfl, rfl⟩ := EncodeStep.unique hstep (encodeStep_chooseCode _ _ _)
    simp [fullTrial, ih, Nat.add_assoc]

theorem encodes_iff (sfq : Sfq) (v v' : LmsState) (xs : List S16) (codes : List Code) (err : Nat) :
    Encodes sfq v xs codes v' err ↔ fullTrial xs (freshTrial v sfq) = ⟨sfq, codes, v', err⟩ := by
  have hto {codes' : List Code} {w : LmsState} {err' : Nat} (h : Encodes sfq v xs codes' w err') :
      fullTrial xs (freshTrial v sfq) = ⟨sfq, codes', w, err'⟩ := by
    simpa [freshTrial] using Encodes.fullTrial_eq h [] 0
  refine ⟨hto, fun h => ?_⟩
  obtain ⟨codes', w, err', he⟩ := exists_encodes sfq xs v
  have heq := (hto he).symm.trans h
  injection heq with _ hcodes hslot herr
  exact hcodes ▸ hslot ▸ herr ▸ he

/-- Decoding a candidate's codes retraces its run, and its error is the distance of what they decode to. -/
theorem Encodes.exists_decodes {sfq : Sfq} {v v' : LmsState} {xs : List S16} {codes : List Code} {err : Nat}
    (h : Encodes sfq v xs codes v' err) : ∃ out, Decodes sfq v codes out v' ∧ out.length = xs.length ∧
      err = (List.zipWith (fun x y : S16 => (x.toInt - y.toInt).natAbs) xs out).sum := by
  induction h with
  | nil v => exact ⟨[], .nil v, rfl, rfl⟩
  | cons hstep _ ih =>
    obtain ⟨_, out, -, -, hdec, rfl⟩ := hstep
    obtain ⟨outs, hdecs, hlen, rfl⟩ := ih
    exact ⟨out :: outs, .cons hdec hdecs, by simp [hlen], by simp⟩

/-! ### The search -/

/-- A round of the search keeps the better of the winner and the whole candidate: a pruned one could not have won. -/
theorem selectStep_some (v : LmsState) (xs : List S16) (t : Trial) (sfq : Sfq) :
    selectStep v xs (some t) sfq = some (betterTrial t (fullTrial xs (freshTrial v sfq))) := by
  rcases runCandidate_cases (some t.err) xs (freshTrial v sfq) with h | ⟨h, hr⟩
  · simp only [selectStep, Option.map_some, h, reached, decide_eq_true_eq, betterTrial, ← not_lt, ite_not]
    exact (apply_ite some ..).symm
  · simp only [reached, decide_eq_true_eq] at hr
    simp [selectStep, h, betterTrial, hr.not_gt]

theorem foldl_selectStep (v : LmsState) (xs : List S16) :
    candidates.foldl (selectStep v xs) none = some (unprunedWinner v xs) := by
  have hzero : selectStep v xs none 0 = selectStep v xs (some (fullTrial xs (freshTrial v 0))) 0 := by
    simp [selectStep_none, selectStep_some, betterTrial]
  have hcons : candidates = 0 :: candidates.tail := by decide
  have hfirst : candidates.foldl (selectStep v xs) none =
      candidates.foldl (selectStep v xs) (some (fullTrial xs (freshTrial v 0))) := by
    rw [hcons, List.foldl_cons, hzero, ← List.foldl_cons]
  rw [hfirst, unprunedWinner, List.foldl_map]
  exact List.foldl_hom some (selectStep_some v xs)

/-- Settles O45: every round of the search is a round of the search without pruning. -/
theorem pruningKeepsTheWinner : Obligations.PruningKeepsTheWinner := by
  intro v xs
  rw [selectWinner, foldl_selectStep, Option.getD_some]

theorem idxOf_candidates : ∀ sfq : Sfq, candidates.idxOf sfq = sfq.toNat := by decide

/-- The search keeps the first of the candidates of the least error, as the library's `List.argmin` does. -/
theorem argmin_candidates (v : LmsState) (xs : List S16) :
    (candidates.argmin fun q => (fullTrial xs (freshTrial v q)).err).map (fun q => fullTrial xs (freshTrial v q)) =
      some (selectWinner v xs) := by
  rw [pruningKeepsTheWinner, ← foldl_selectStep]
  refine (List.foldl_hom (Option.map _) fun win q => ?_).symm
  cases win with
  | none => exact selectStep_none v xs q
  | some q' =>
    simp only [Option.map_some, selectStep_some, betterTrial, List.argAux]
    split_ifs <;> rfl

/-- The winner is its own candidate run to the end, and it wins over all 16 by the rule of R126. -/
theorem selectWinner_wins (v : LmsState) (xs : List S16) :
    Encodes (selectWinner v xs).sfq v xs (selectWinner v xs).codes (selectWinner v xs).slot (selectWinner v xs).err ∧
      Wins v xs (selectWinner v xs).sfq (selectWinner v xs).err := by
  obtain ⟨sfq, hargmin, hrun⟩ := Option.map_eq_some_iff.1 (argmin_candidates v xs)
  obtain ⟨-, hmin, hfirst⟩ := List.argmin_eq_some_iff.1 hargmin
  have hsfq : (selectWinner v xs).sfq = sfq := by simp [← hrun, freshTrial]
  rw [hsfq]
  refine ⟨(encodes_iff ..).2 (by rw [hrun, ← hsfq]), fun sfq' codes' v' err' h => ?_⟩
  have hrun' := (encodes_iff ..).1 h
  have hle := hmin sfq' (mem_candidates sfq')
  have hlow := hfirst sfq' (mem_candidates sfq')
  simp only [hrun, hrun', idxOf_candidates] at hle hlow
  exact ⟨hle, fun htie => hlow htie.le⟩

/-! ### The commands -/

/-- SLICE_ENCODE of at most 20 samples commits the winner and sends its word and its error. -/
theorem exec_sliceEncode {s : State} {c : Channel} {v : LmsState} {xs : List S16} (h : s.slot c = some v)
    (hx : xs.length ≤ 20) : exec (.sliceEncode c xs) s = .next { s with
      bank := s.bank.set c.toNat (selectWinner v xs).slot
      rspQueue := s.rspQueue ++ statusBeat 0x11 c.toNat 0 :: encodeResults (selectWinner v xs) } :=
  exec_of_slot (.sliceEncode c xs) h rfl (decide_eq_false hx.not_gt)

theorem selectWinner_codes_length (v : LmsState) (xs : List S16) :
    (selectWinner v xs).codes.length = xs.length := by
  obtain ⟨out, hdec, hlen, -⟩ := Encodes.exists_decodes (selectWinner_wins v xs).1
  rw [← Decodes.length_eq hdec, hlen]

/-- Settles O44: the winner of the search is the one of R126, and its word is the sum of its fields. -/
theorem sliceEncodeCommitsTheWinner : Obligations.SliceEncodeCommitsTheWinner := by
  intro s c xs v h hx
  obtain ⟨henc, hwins⟩ := selectWinner_wins v xs
  have hcodes : (selectWinner v xs).codes.length ≤ 20 := (selectWinner_codes_length v xs).trans_le hx
  refine ⟨_, _, _, _, henc, hwins, ?_⟩
  rw [← pack_toNat _ hcodes, exec_sliceEncode h hx, encodeResults_eq]

/-- With no samples every candidate ends as it began, and candidate 0 is the lowest of them. -/
theorem selectWinner_nil (v : LmsState) : selectWinner v [] = freshTrial v 0 := by
  obtain ⟨henc, hwins⟩ := selectWinner_wins v []
  generalize selectWinner v [] = t at henc hwins ⊢
  have hrun : freshTrial v t.sfq = t := (encodes_iff ..).1 henc
  have herr : 0 = t.err := congrArg Trial.err hrun
  obtain ⟨-, hlowest⟩ := hwins 0 [] v 0 (.nil v)
  have hsfq : t.sfq = 0 := BitVec.eq_of_toNat_eq (Nat.le_zero.1 (hlowest herr))
  rw [← hrun, hsfq]

theorem encodeResults_freshTrial_zero (v : LmsState) : encodeResults (freshTrial v 0) = [0, 0, 0] := by
  simp [encodeResults_eq, freshTrial, pack, packCodes]

/-- Settles O46: the winner is the untouched candidate 0, whose slot is the one that is there. -/
theorem emptySliceIsZero : Obligations.EmptySliceIsZero := by
  intro s c hc
  obtain ⟨v, h⟩ := (s.slot_eq_some_iff c).2 hc
  have hbank : s.bank.set c.toNat v = s.bank := congrArg State.bank (State.setSlot_same h)
  rw [exec_sliceEncode h (by simp), selectWinner_nil, encodeResults_freshTrial_zero, freshTrial, hbank]

/-! ### The ranges of the datapath -/

theorem fullTrial_err_le (xs : List S16) (t : Trial) : (fullTrial xs t).err ≤ t.err + 65535 * xs.length := by
  induction xs generalizing t with
  | nil => exact le_rfl
  | cons x xs ih =>
    have hstep := stepError_le t.slot t.sfq x (chooseCode t.slot t.sfq x)
    rw [fullTrial]
    refine (ih _).trans ?_
    simp only [List.length_cons]
    omega

theorem freshTrial_err_le (v : LmsState) (sfq : Sfq) {xs : List S16} (hx : xs.length ≤ 20) :
    (fullTrial xs (freshTrial v sfq)).err ≤ 1310700 := by
  have herr : (fullTrial xs (freshTrial v sfq)).err ≤ 0 + 65535 * xs.length := fullTrial_err_le xs _
  omega

/-- Settles O47: the ranges of the prediction, of a table entry and of a sample add up. -/
theorem datapathRanges : Obligations.DatapathRanges := by
  refine ⟨fun v sfq r x => ?_, fun v sfq xs => freshTrial_err_le v sfq⟩
  obtain ⟨hp, hp'⟩ := predict_range v
  obtain ⟨hx, hx'⟩ := toInt_range x
  obtain ⟨hd, hd'⟩ := deq_range sfq r
  exact ⟨hp, hp', by omega, by omega, by omega, by omega, stepError_le v sfq x r⟩

/-! ### The decoder on the encoder's words -/

/-- Settles O48: with 20 samples the word holds the winner's codes and no others, and decoding a candidate's codes
retraces its run. -/
theorem decodeRetracesEncode : Obligations.DecodeRetracesEncode := by
  intro s u c d v xs hs hu hx
  have henc := (selectWinner_wins v xs).1
  have hcodes : (selectWinner v xs).codes.length = 20 := (selectWinner_codes_length v xs).trans hx
  have herr := freshTrial_err_le v (selectWinner v xs).sfq hx.le
  rw [(encodes_iff ..).1 henc] at herr
  obtain ⟨out, hdec, hlen, hsum⟩ := Encodes.exists_decodes henc
  refine ⟨pack (selectWinner v xs).sfq (selectWinner v xs).codes, _, (selectWinner v xs).slot, out, ?_,
    exec_sliceDecode hu ?_, hlen.trans hx, hsum, herr.trans_lt (by decide)⟩
  · rw [exec_sliceEncode hs hx.le, encodeResults_eq]
  · rw [unpackSfq_pack _ hcodes.le, unpackCodes_pack _ hcodes.le, hcodes]
    simpa using hdec

/-- Settles O49: the word's codes are the winner's and then code 0, so its decoding is the winner's run and then a
decoding of code 0 from where the winner ends. -/
theorem shortSliceSharesItsPrefix : Obligations.ShortSliceSharesItsPrefix := by
  intro v xs hx
  have hlen := selectWinner_codes_length v xs
  obtain ⟨out, hdec, hout, -⟩ := Encodes.exists_decodes (selectWinner_wins v xs).1
  have hrest := decodes_decodeSamples (selectWinner v xs).sfq (List.replicate (20 - xs.length) 0)
    (selectWinner v xs).slot
  refine ⟨out, _, _, hdec, hout, hrest, ?_⟩
  rw [unpackSfq_pack _ (hlen.trans_le hx), unpackCodes_pack _ (hlen.trans_le hx), hlen]
  exact Decodes.append hdec hrest

end Sys2Proof.Machine

/-! SUPPORT. Proofs of the statements of 43_control.md: the command NOP (R150). -/

namespace Sys2Proof.Machine

open Sys2Proof.Safety

/-- Every bit of a header below an opcode field of 0 is reserved-zero. -/
theorem reservedBitSet_eq_false_iff_of_opOf_eq_zero {hdr : Beat} (h : opOf hdr = 0x00) :
    reservedBitSet hdr = false ↔ hdr = 0 := by
  have hlow : hdr.toNat % 2 ^ 24 = hdr.toNat := Nat.mod_eq_of_lt (Nat.lt_of_div_eq_zero (by decide) h)
  simp only [reservedBitSet, h, hlow, bne_eq_false_iff_eq]
  exact BitVec.toNat_inj (y := 0#32)

/-- A header with NOP's opcode calls for no payload. -/
theorem payloadLen_of_opOf_eq_zero {hdr : Beat} (h : opOf hdr = 0x00) : payloadLen hdr = 0 := by
  simp [payloadLen_eq, payloadCount, h]

/-- Settles O50: NOP names no slot and has no result, and its only header with no reserved bit set is zero. -/
theorem nopReportsCompletion : Obligations.NopReportsCompletion := by
  refine ⟨exec_of_no_slotOf_statusBeat (i := .nop) rfl, fun hdr more h => ?_⟩
  have hiff := reservedBitSet_eq_false_iff_of_opOf_eq_zero h
  have hlen : ([] : List Beat).length = payloadLen hdr := (payloadLen_of_opOf_eq_zero h).symm
  split_ifs with hzero
  · exact decode_of_opcode more hlen (hdrOp_of_opOf (op := .nop) h) (hiff.2 hzero)
  · exact decode_of_reservedBitSet more hlen (by rw [h]; rfl) (by simpa using mt hiff.1 hzero)

end Sys2Proof.Machine

/-! SUPPORT. Proofs of the statements of 60_exceptions.md: what a command that ends in an error answers (R161 to
R164). -/

namespace Sys2Proof.Machine

open Sys2Proof.Safety

/-- Settles O9: of the two answers to a collected command, the code leaves only the error, which writes no slot. -/
theorem errorSendsStatusAlone : Obligations.ErrorSendsStatusAlone := by
  intro s hdr got h hst
  have hans := answersHeader_step h
  obtain ⟨_, _, _, hq⟩ := h
  rcases hans with ⟨_, e⟩ | ⟨hok, _⟩
  · rw [e, State.respond, State.endCollect_rspQueue, State.advance_rspQueue, hq]
    rfl
  · exact absurd hok hst

theorem namedResponse_none (i : Instr) (c : Channel) :
    namedResponse i c none = [statusBeat (opNumber i) c.toNat 3] := by
  rw [namedResponse, statusWord_eq, opNumber_eq]
  rfl

theorem namedResponse_of_tooManySamples {i : Instr} (h : tooManySamples i = true) (c : Channel) (v : LmsState) :
    namedResponse i c (some v) = [statusBeat (opNumber i) c.toNat 4] := by
  rw [namedResponse, if_pos h, statusWord_eq, opNumber_eq]
  rfl

theorem namedWrite_of_tooManySamples {i : Instr} (h : tooManySamples i = true) (v : LmsState) :
    namedWrite i (some v) = none := if_pos h

/-- Settles O51: a slot that is not there holds nothing to write, and its only response is the error. -/
theorem missingSlotIsErrChannel : Obligations.MissingSlotIsErrChannel := by
  intro s i c hi hc
  rw [exec_of_slotOf hi, (s.slot_eq_none_iff c).2 hc, namedResponse_none]
  rfl

/-- Settles O52: the slot is there, so it is the count that decides, and nothing is written. -/
theorem tooManySamplesIsErrCount : Obligations.TooManySamplesIsErrCount := by
  intro s c xs hc hx
  obtain ⟨v, hv⟩ := (s.slot_eq_some_iff c).2 hc
  have hmany : tooManySamples (.sliceEncode c xs) = true := decide_eq_true hx
  rw [exec_of_slotOf rfl, hv, namedWrite_of_tooManySamples hmany, namedResponse_of_tooManySamples hmany]
  rfl

end Sys2Proof.Machine

/-! SUPPORT. Proofs of the statements of 70_reset_and_hazards.md: reset (R180), the command whose payload never
arrives (R186), and the beat after a reserved opcode (R187). -/

namespace Sys2Proof.Machine

open Sys2Proof.Safety

/-! ### Reset -/

theorem step_of_rst {s : State} (h : s.hostEdge.rst = true) : step s = .next s.applyReset.advance := by
  rcases step_cases s with ⟨_, e⟩ | ⟨h', _⟩ | ⟨h', _⟩
  · exact e
  · simp [h] at h'
  · simp [h] at h'

theorem State.cmdReady_of_rst {s : State} (h : s.hostEdge.rst = true) : s.cmdReady = false := by
  simp [State.cmdReady, h]

theorem State.rspValid_of_rst {s : State} (h : s.hostEdge.rst = true) : s.rspValid = false := by
  simp [State.rspValid, h]

/-- Outside reset, with no response pending, a parser that misses a beat takes one (20_memory.md R41). -/
theorem State.cmdReady_of_quiet {s : State} (hr : s.hostEdge.rst = false) (hp : s.parser.ready = false)
    (hq : s.rspQueue = []) : s.cmdReady = true := by
  simp [State.cmdReady, hr, hp, hq]

theorem State.applyReset_bank_getElem? {s : State} {k : Nat} (h : k < s.nch) :
    s.applyReset.bank[k]? = some Config.initLms := by
  rw [State.applyReset_bank, List.map_const']
  exact List.getElem?_replicate_of_lt h

/-- Settles O15: the edge resets the block, and leaves it with an idle parser and nothing pending, so ready. -/
theorem rstEdgeResetsTheBlock : Obligations.RstEdgeResetsTheBlock := fun s h =>
  ⟨State.cmdReady_of_rst h, State.rspValid_of_rst h, s.applyReset.advance, step_of_rst h, by simp,
    fun _ hk => State.applyReset_bank_getElem? hk, rfl, rfl, rfl, rfl,
    fun hr => State.cmdReady_of_quiet hr Parser.ready_idle rfl⟩

/-! ### A beat that never comes -/

theorem State.hostEdge_rst_of_edges {s : State} (h : ∀ e ∈ s.edges, e.rst = false) :
    s.hostEdge.rst = false := by
  cases he : s.edges with
  | nil => simp [State.hostEdge, State.defaultEdge, he]
  | cons e es => simpa [State.hostEdge, he] using h e (by simp [he])

/-- With nothing to send on either side, no beat moves. -/
theorem State.movePorts_of_nothing {s : State} (hs : s.cmdStream = []) (hq : s.rspQueue = []) :
    s.movePorts = s := by
  simp [State.movePorts, State.rspValid, State.takeCommand, hs, hq]

/-- A block that waits with nothing to send on either side only sees the edges pass. -/
theorem steps_of_nothing (k : Nat) {s : State} (hw : Waiting s) (hs : s.cmdStream = []) (hq : s.rspQueue = [])
    (he : ∀ e ∈ s.edges, e.rst = false) :
    steps k s = .next { s with edges := s.edges.drop k, edgeCount := s.edgeCount + k } := by
  induction k generalizing s with
  | zero => rfl
  | succ k ih =>
    have hstep : step s = .next s.advance := by
      rw [step_of_waiting (State.hostEdge_rst_of_edges he) hw, State.movePorts_of_nothing hs hq]
    have hrest := ih (s := s.advance) hw hs hq fun e hmem => he e (List.mem_of_mem_tail hmem)
    rw [steps_succ_of_next k hstep, hrest]
    simp [State.advance, Nat.add_assoc, Nat.add_comm 1]

/-- Settles O21: a missing payload beat is a way to wait, and nothing but the edges passes. -/
theorem incompleteCommandWaits : Obligations.IncompleteCommandWaits :=
  fun k _ hdr got hp hl hs hq he =>
    ⟨_, steps_of_nothing k (.inr (.inr ⟨hdr, got, hp, hl⟩)) hs hq he, rfl, rfl, hq, rfl⟩

/-! ### The beat after a reserved opcode -/

/-- A header with a reserved opcode is a whole command, and its answer is `ERR_OPCODE` alone (30_encoding.md R65). -/
theorem step_of_reservedOpcode {s : State} {hdr : Beat} (he : s.edges = []) (hp : s.parser = .collect hdr [])
    (hq : s.rspQueue = []) (hd : definedOp (opOf hdr) = false) :
    step s = .next { s with
      parser := .idle, rspQueue := [statusBeat (opOf hdr) (chOf hdr) 1], edgeCount := s.edgeCount + 1 } := by
  have hedge := State.hostEdge_of_quiet he hq
  have hready : CommandReady s hdr [] := ⟨by rw [hedge], hp, (payloadLen_of_reservedOpcode hd).symm, hq⟩
  have hst := expectedStatus_of_reservedOpcode s.nch hd
  rw [errorSendsStatusAlone s hdr [] hready (by simp [hst]), hst, he, List.tail_nil]

/-- Settles O24: four edges, one each for the header, its answer, the answer's way to the host, and the next beat,
which the parser, idle again, reads as a header. -/
theorem beatAfterReservedOpcodeIsHeader : Obligations.BeatAfterReservedOpcodeIsHeader := by
  intro s hdr b bs hd he hp hq hs
  have hheader := step_of_quiet he hq hs (by rw [hp, Parser.ready_idle])
  rw [hp] at hheader
  calc steps 4 s
      = steps 3 { s with parser := .collect hdr [], cmdStream := b :: bs, edgeCount := s.edgeCount + 1 } :=
        steps_succ_of_next 3 hheader
    _ = steps 2 { s with
          parser := .idle, cmdStream := b :: bs, rspQueue := [statusBeat (opOf hdr) (chOf hdr) 1]
          edgeCount := s.edgeCount + 2 } := steps_succ_of_next 2 (step_of_reservedOpcode he rfl hq hd)
    _ = steps 1 { s with
          parser := .idle, cmdStream := b :: bs, rspQueue := []
          rspTaken := s.rspTaken ++ [statusBeat (opOf hdr) (chOf hdr) 1], edgeCount := s.edgeCount + 3 } :=
        steps_succ_of_next 1 (step_of_pending he rfl)
    _ = .next { s with
          parser := .collect b [], cmdStream := bs, edgeCount := s.edgeCount + 4
          rspTaken := s.rspTaken ++ [statusBeat (opOf hdr) (chOf hdr) 1] } := by
        rw [steps_one, hq]
        exact step_of_quiet he rfl rfl Parser.ready_idle

end Sys2Proof.Machine
